-- ==== Sys2Proof/Word.lean ====
section
/-! DEFINITION. The word and byte types of the hardware (R6, R8): register values, addresses, immediates and
displacements are 32-bit vectors, memory cells are 8-bit vectors. -/

namespace Sys2Proof

/-- A 32-bit value: a register, an address, an immediate or a displacement (R6, R8). -/
abbrev Word := BitVec 32

/-- One byte of memory or of an instruction (R6, R8). -/
abbrev Byte := BitVec 8

end Sys2Proof
end

