-- ==== Sys2Proof/Syntax.lean ====
section
/-! DEFINITION. The instructions as syntax: one constructor of `Instr` per row of spec/opcode_table.json, and the operand
descriptor of the ModRM forms (R67). -/

namespace Sys2Proof

/-- The eight general registers, in the order of their 3-bit index (R20). -/
inductive Reg where
  | eax | ecx | edx | ebx | esp | ebp | esi | edi
deriving DecidableEq, Repr

/-- The ModRM `mode` field, bits 7 and 6 of the ModRM byte (R64): 00, 01 and 10 select a memory operand, 11 a register. -/
inductive Mode where
  | m00 | m01 | m10 | m11
deriving DecidableEq, Repr

/-- The displacement of a descriptor: none, the raw byte, or the raw word (R66, R67). -/
inductive Disp where
  | none
  | disp8 (v : Byte)
  | disp32 (v : Word)
deriving DecidableEq, Repr

/-- The operand descriptor, the decoded ModRM region (R67).  `reg` is a register index or an opcode extension, `rm` a
register index, the SIB escape or the absolute form, so both stay the three bits the encoding has.  Which descriptors the
decoder can give is `Descriptor.wf`. -/
structure Descriptor where
  mode : Mode
  reg  : BitVec 3
  rm   : BitVec 3
  sib  : Option Byte
  disp : Disp
deriving DecidableEq, Repr

/-- The 17 instructions (R2, R86). -/
inductive Instr where
  /-- MOV r32, imm32 (B8+r id, R100). -/
  | movR32Imm32 (r : Reg) (imm : Word)
  /-- MOV r/m32, imm32 (C7 id, every reg value, R101). -/
  | movRm32Imm32 (d : Descriptor) (imm : Word)
  /-- MOV r/m32, r32 (89 /r, R102). -/
  | movRm32R32 (d : Descriptor)
  /-- MOV r32, r/m32 (8B /r, R103). -/
  | movR32Rm32 (d : Descriptor)
  /-- ADD r/m32, r32 (01 /r, R120). -/
  | addRm32R32 (d : Descriptor)
  /-- ADD r/m32, imm8 (83 /0 ib, R121). -/
  | addRm32Imm8 (d : Descriptor) (imm : Byte)
  /-- SUB r/m32, imm8 (83 /5 ib, R122). -/
  | subRm32Imm8 (d : Descriptor) (imm : Byte)
  /-- INC r/m32 (FF /0, R123). -/
  | incRm32 (d : Descriptor)
  /-- PUSH r32 (50+r, R140). -/
  | pushR32 (r : Reg)
  /-- PUSH imm32 (68 id, R141). -/
  | pushImm32 (imm : Word)
  /-- PUSH imm8 (6A ib, R142). -/
  | pushImm8 (imm : Byte)
  /-- POP r32 (58+r, R143). -/
  | popR32 (r : Reg)
  /-- LEAVE (C9, R144). -/
  | leave
  /-- CALL rel32 (E8 cd, R160). -/
  | callRel32 (rel : Word)
  /-- RET (C3, R161). -/
  | ret
  /-- JMP rel8 (EB cb, R162). -/
  | jmpRel8 (rel : Byte)
  /-- JMP rel32 (E9 cd, R163). -/
  | jmpRel32 (rel : Word)
deriving DecidableEq, Repr

/-- The descriptor of an instruction that has one. -/
def Instr.descriptor : Instr → Option Descriptor
  | .movRm32Imm32 d _ => some d
  | .movRm32R32 d => some d
  | .movR32Rm32 d => some d
  | .addRm32R32 d => some d
  | .addRm32Imm8 d _ => some d
  | .subRm32Imm8 d _ => some d
  | .incRm32 d => some d
  | .movR32Imm32 _ _ => none
  | .pushR32 _ => none
  | .pushImm32 _ => none
  | .pushImm8 _ => none
  | .popR32 _ => none
  | .leave => none
  | .callRel32 _ => none
  | .ret => none
  | .jmpRel8 _ => none
  | .jmpRel32 _ => none

end Sys2Proof
end

