-- ==== Sys2Proof/WellFormed.lean ====
section
/-! DEFINITION. Which terms of the syntax stand for an encoding: the invariants of the operand descriptor (R67) and the
opcode extensions of the two group opcodes (R80). -/

namespace Sys2Proof

/-- The SIB invariant of R67: a SIB byte is present if and only if the mode is not 11 and rm is 100b. -/
def Descriptor.sibOk (d : Descriptor) : Bool :=
  d.sib.isSome == (d.mode != .m11 && d.rm == 4)

/-- The displacement invariant of R67: a word in mode 10 and in mode 00 with rm 101b, a byte in mode 01, none otherwise. -/
def Descriptor.dispOk (d : Descriptor) : Bool :=
  match d.mode, d.disp with
  | .m00, .disp32 _ => d.rm == 5
  | .m00, .none => d.rm != 5
  | .m01, .disp8 _ => true
  | .m10, .disp32 _ => true
  | .m11, .none => true
  | .m00, .disp8 _ => false
  | .m01, .none => false
  | .m01, .disp32 _ => false
  | .m10, .none => false
  | .m10, .disp8 _ => false
  | .m11, .disp8 _ => false
  | .m11, .disp32 _ => false

/-- A descriptor the decoder can give (R67). -/
def Descriptor.wf (d : Descriptor) : Bool := d.sibOk && d.dispOk

/-- An instruction an encoding stands for: its descriptor is well formed (R67), and under the group opcodes 0x83 and 0xFF
the reg field is the instruction's own extension (R80).  The reg field of 0xC7 is free (R81). -/
def Instr.wf : Instr → Bool
  | .movRm32Imm32 d _ => d.wf
  | .movRm32R32 d => d.wf
  | .movR32Rm32 d => d.wf
  | .addRm32R32 d => d.wf
  | .addRm32Imm8 d _ => d.wf && d.reg == 0
  | .subRm32Imm8 d _ => d.wf && d.reg == 5
  | .incRm32 d => d.wf && d.reg == 0
  | .movR32Imm32 _ _ => true
  | .pushR32 _ => true
  | .pushImm32 _ => true
  | .pushImm8 _ => true
  | .popR32 _ => true
  | .leave => true
  | .callRel32 _ => true
  | .ret => true
  | .jmpRel8 _ => true
  | .jmpRel32 _ => true

end Sys2Proof
end

