-- ==== Sys2Proof/Decode.lean ====
section
/-! DEFINITION. Bytes to instructions (`decode`, total on any bytes) and back (`encode`): the bit fields and byte order
(R8, R9, R43, R44), the operand decoder (R63 to R70), the dispatch table (R79), the group opcodes (R80) and the instruction
lengths (R68, R84). -/

namespace Sys2Proof

/-! ## Bytes, words and extensions -/

/-- The word four bytes make, the first the least significant (R43). -/
def wordOfBytes (b0 b1 b2 b3 : Byte) : Word :=
  b0.setWidth 32 ||| (b1.setWidth 32 <<< 8) ||| (b2.setWidth 32 <<< 16) ||| (b3.setWidth 32 <<< 24)

/-- Byte `i` of a word, `v[8i+7:8i]` (R44). -/
def byteOfWord (v : Word) (i : Nat) : Byte := v.extractLsb' (8 * i) 8

/-- The four bytes of a word, the least significant first (R44). -/
def wordBytes (v : Word) : List Byte :=
  [byteOfWord v 0, byteOfWord v 1, byteOfWord v 2, byteOfWord v 3]

/-- `sext_32`: bits 31 to 8 are copies of bit 7 (R9). -/
def sext32 (v : Byte) : Word := v.signExtend 32

/-- `zext_32`: bits 31 to 8 are 0 (R9). -/
def zext32 (v : Byte) : Word := v.setWidth 32

/-! ## Register indexes and modes -/

/-- The 3-bit index of a register (R20). -/
def Reg.bits : Reg → BitVec 3
  | .eax => 0 | .ecx => 1 | .edx => 2 | .ebx => 3
  | .esp => 4 | .ebp => 5 | .esi => 6 | .edi => 7

/-- The register a 3-bit index names (R20). -/
def Reg.ofBits (b : BitVec 3) : Reg :=
  if b = 0 then .eax else if b = 1 then .ecx else if b = 2 then .edx else if b = 3 then .ebx
  else if b = 4 then .esp else if b = 5 then .ebp else if b = 6 then .esi else .edi

/-- The two bits of a mode (R64). -/
def Mode.bits : Mode → BitVec 2
  | .m00 => 0 | .m01 => 1 | .m10 => 2 | .m11 => 3

/-- The mode two bits name (R64). -/
def Mode.ofBits (b : BitVec 2) : Mode :=
  if b = 0 then .m00 else if b = 1 then .m01 else if b = 2 then .m10 else .m11

/-- The value of a displacement in an address sum: a byte is sign-extended, a word is taken as it is (R71, R78).  No form
without a displacement reads it. -/
def Disp.value : Disp → Word
  | .none => 0
  | .disp8 v => sext32 v
  | .disp32 v => v

/-! ## The decoder -/

/-- Why bytes are not an instruction.  Each is rejected by name. -/
inductive DecodeError where
  /-- The bytes ended before the instruction did: the byte just past the end of the list is wanted (R42, R70). -/
  | missing
  /-- The opcode's slot in the dispatch table is absent (R82). -/
  | opcode (opcode : Byte)
  /-- The reg field of a group opcode selects no operation (R80). -/
  | extension (opcode : Byte) (reg : BitVec 3)
deriving DecidableEq, Repr

/-- One byte off the front (`Fetch8`, R48). -/
def takeByte : List Byte → Except DecodeError (Byte × List Byte)
  | b :: rest => .ok (b, rest)
  | [] => .error .missing

/-- A little-endian word off the front (`Fetch32`, R48). -/
def takeWord : List Byte → Except DecodeError (Word × List Byte)
  | b0 :: b1 :: b2 :: b3 :: rest => .ok (wordOfBytes b0 b1 b2 b3, rest)
  | _ => .error .missing

/-- Step 2 of the operand decoder: the SIB byte, recorded and never interpreted (R65). -/
def takeSib (mode : Mode) (rm : BitVec 3) (bytes : List Byte) : Except DecodeError (Option Byte × List Byte) :=
  if mode ≠ .m11 ∧ rm = 4 then do
    let (b, rest) ← takeByte bytes
    return (some b, rest)
  else return (none, bytes)

/-- Step 3 of the operand decoder: exactly one of no displacement, one byte, four bytes (R66). -/
def takeDisp (mode : Mode) (rm : BitVec 3) (bytes : List Byte) : Except DecodeError (Disp × List Byte) :=
  if (mode = .m00 ∧ rm = 5) ∨ mode = .m10 then do
    let (v, rest) ← takeWord bytes
    return (.disp32 v, rest)
  else if mode = .m01 then do
    let (b, rest) ← takeByte bytes
    return (.disp8 b, rest)
  else return (.none, bytes)

/-- `DecodeModRM` (R63 to R66) on the bytes after the opcode: the descriptor and the bytes after the ModRM region. -/
def decodeModRM (bytes : List Byte) : Except DecodeError (Descriptor × List Byte) := do
  let (b, rest) ← takeByte bytes
  let mode := Mode.ofBits (b.extractLsb' 6 2)
  let reg := b.extractLsb' 3 3
  let rm := b.extractLsb' 0 3
  let (sib, rest) ← takeSib mode rm rest
  let (disp, rest) ← takeDisp mode rm rest
  return ({ mode, reg, rm, sib, disp }, rest)

/-- The handlers of the dispatch table (R79). -/
inductive Handler where
  | addRm32R32 | pushR32 | popR32 | pushImm32 | pushImm8 | group83 | movRm32R32 | movR32Rm32 | movR32Imm32
  | ret | movRm32Imm32 | leave | callRel32 | nearJump | shortJump | groupFF
deriving DecidableEq, Repr

/-- A row of the dispatch table: the opcodes that equal `pattern` under `mask`. -/
structure OpcodeRow where
  mask : Byte
  pattern : Byte
  handler : Handler
deriving DecidableEq, Repr

/-- The populated slots of the dispatch table (R79); every other slot is absent. -/
def opcodeRows : List OpcodeRow :=
  [⟨0xFF, 0x01, .addRm32R32⟩, ⟨0xF8, 0x50, .pushR32⟩, ⟨0xF8, 0x58, .popR32⟩, ⟨0xFF, 0x68, .pushImm32⟩,
   ⟨0xFF, 0x6A, .pushImm8⟩, ⟨0xFF, 0x83, .group83⟩, ⟨0xFF, 0x89, .movRm32R32⟩, ⟨0xFF, 0x8B, .movR32Rm32⟩] ++
  [⟨0xF8, 0xB8, .movR32Imm32⟩, ⟨0xFF, 0xC3, .ret⟩, ⟨0xFF, 0xC7, .movRm32Imm32⟩, ⟨0xFF, 0xC9, .leave⟩,
   ⟨0xFF, 0xE8, .callRel32⟩, ⟨0xFF, 0xE9, .nearJump⟩, ⟨0xFF, 0xEB, .shortJump⟩, ⟨0xFF, 0xFF, .groupFF⟩]

/-- The dispatch table as a function of the opcode byte (R62, R79). -/
def dispatch (opcode : Byte) : Option Handler :=
  (opcodeRows.find? fun row => opcode &&& row.mask == row.pattern).map (·.handler)

/-- The register an OP+r opcode holds in its low three bits (R62). -/
def opcodeReg (opcode : Byte) : Reg := Reg.ofBits (opcode.extractLsb' 0 3)

/-- The rest of an instruction under its handler (R61, R78, R80).  A group opcode checks its reg field after the ModRM
region and before the immediate (R80, R192). -/
def decodeOperands (opcode : Byte) (h : Handler) (bytes : List Byte) : Except DecodeError (Instr × List Byte) :=
  match h with
  | .addRm32R32 => do
    let (d, rest) ← decodeModRM bytes
    return (.addRm32R32 d, rest)
  | .pushR32 => return (.pushR32 (opcodeReg opcode), bytes)
  | .popR32 => return (.popR32 (opcodeReg opcode), bytes)
  | .pushImm32 => do
    let (imm, rest) ← takeWord bytes
    return (.pushImm32 imm, rest)
  | .pushImm8 => do
    let (imm, rest) ← takeByte bytes
    return (.pushImm8 imm, rest)
  | .group83 => do
    let (d, rest) ← decodeModRM bytes
    if d.reg = 0 then do
      let (imm, rest) ← takeByte rest
      return (.addRm32Imm8 d imm, rest)
    else if d.reg = 5 then do
      let (imm, rest) ← takeByte rest
      return (.subRm32Imm8 d imm, rest)
    else .error (.extension opcode d.reg)
  | .movRm32R32 => do
    let (d, rest) ← decodeModRM bytes
    return (.movRm32R32 d, rest)
  | .movR32Rm32 => do
    let (d, rest) ← decodeModRM bytes
    return (.movR32Rm32 d, rest)
  | .movR32Imm32 => do
    let (imm, rest) ← takeWord bytes
    return (.movR32Imm32 (opcodeReg opcode) imm, rest)
  | .ret => return (.ret, bytes)
  | .movRm32Imm32 => do
    let (d, rest) ← decodeModRM bytes
    let (imm, rest) ← takeWord rest
    return (.movRm32Imm32 d imm, rest)
  | .leave => return (.leave, bytes)
  | .callRel32 => do
    let (rel, rest) ← takeWord bytes
    return (.callRel32 rel, rest)
  | .nearJump => do
    let (rel, rest) ← takeWord bytes
    return (.jmpRel32 rel, rest)
  | .shortJump => do
    let (rel, rest) ← takeByte bytes
    return (.jmpRel8 rel, rest)
  | .groupFF => do
    let (d, rest) ← decodeModRM bytes
    if d.reg = 0 then return (.incRm32 d, rest)
    else .error (.extension opcode d.reg)

/-- The decoder: the instruction at the front of a list of bytes and the bytes after it, or why there is none (R60 to R85).
An absent opcode is rejected before any later byte is looked at (R82, R85). -/
def decode : List Byte → Except DecodeError (Instr × List Byte)
  | [] => .error .missing
  | opcode :: rest =>
    match dispatch opcode with
    | none => .error (.opcode opcode)
    | some h => decodeOperands opcode h rest

/-! ## Lengths -/

/-- The length of the ModRM region for a mode and an rm field (the table of R68). -/
def modRMLength (mode : Mode) (rm : BitVec 3) : Nat :=
  match mode with
  | .m00 => if rm = 4 then 2 else if rm = 5 then 5 else 1
  | .m01 => if rm = 4 then 3 else 2
  | .m10 => if rm = 4 then 6 else 5
  | .m11 => 1

/-- `n`, the number of bytes of the ModRM region (R68). -/
def Descriptor.length (d : Descriptor) : Nat := modRMLength d.mode d.rm

/-- The length of the longest instruction (R84). -/
def maxLength : Nat := 11

/-- `n(modrm)`: the length of the ModRM region that begins with this byte, told by its mode and rm bits alone (R68, R84). -/
def modRMByteLength (modrm : Byte) : Nat :=
  modRMLength (Mode.ofBits (modrm.extractLsb' 6 2)) (modrm.extractLsb' 0 3)

/-- The length of an encoding under its handler (R84).  Only the ModRM formats look at the byte after the opcode.  The group
opcodes have their length whatever the reg field is, so an encoding that faults as an unsupported extension has one too. -/
def handlerLength (h : Handler) (modrm : Byte) : Nat :=
  match h with
  | .pushR32 => 1
  | .popR32 => 1
  | .ret => 1
  | .leave => 1
  | .pushImm8 => 2
  | .shortJump => 2
  | .pushImm32 => 5
  | .movR32Imm32 => 5
  | .callRel32 => 5
  | .nearJump => 5
  | .addRm32R32 => 1 + modRMByteLength modrm
  | .movRm32R32 => 1 + modRMByteLength modrm
  | .movR32Rm32 => 1 + modRMByteLength modrm
  | .groupFF => 1 + modRMByteLength modrm
  | .group83 => 2 + modRMByteLength modrm
  | .movRm32Imm32 => 5 + modRMByteLength modrm

/-- `Length(opcode, modrm)` (R84): the length of an encoding by its first two bytes, none where the opcode's slot is absent.  An
encoding that has a length may still fault when it executes (R72, R80). -/
def encodingLength (opcode modrm : Byte) : Option Nat :=
  (dispatch opcode).map fun h => handlerLength h modrm

/-- The length of a decoded instruction in bytes (R61, R84). -/
def Instr.length : Instr → Nat
  | .movR32Imm32 _ _ => 5
  | .movRm32Imm32 d _ => 5 + d.length
  | .movRm32R32 d => 1 + d.length
  | .movR32Rm32 d => 1 + d.length
  | .addRm32R32 d => 1 + d.length
  | .addRm32Imm8 d _ => 2 + d.length
  | .subRm32Imm8 d _ => 2 + d.length
  | .incRm32 d => 1 + d.length
  | .pushR32 _ => 1
  | .pushImm32 _ => 5
  | .pushImm8 _ => 2
  | .popR32 _ => 1
  | .leave => 1
  | .callRel32 _ => 5
  | .ret => 1
  | .jmpRel8 _ => 2
  | .jmpRel32 _ => 5

/-! ## The encoder -/

/-- The ModRM byte of three fields (R64). -/
def modRMByte (mode : Mode) (reg rm : BitVec 3) : Byte :=
  (mode.bits.setWidth 8 <<< 6) ||| (reg.setWidth 8 <<< 3) ||| rm.setWidth 8

/-- The bytes of a displacement (R66). -/
def Disp.bytes : Disp → List Byte
  | .none => []
  | .disp8 v => [v]
  | .disp32 v => wordBytes v

/-- The ModRM region of a descriptor: the ModRM byte, the SIB byte if present, the displacement (R61). -/
def encodeModRM (d : Descriptor) : List Byte :=
  modRMByte d.mode d.reg d.rm :: (d.sib.toList ++ d.disp.bytes)

/-- An opcode with a register in its low three bits (R62). -/
def opcodeWithReg (base : Byte) (r : Reg) : Byte := base ||| r.bits.setWidth 8

/-- The bytes of a well-formed instruction (R61, R79). -/
def encode : Instr → List Byte
  | .movR32Imm32 r imm => opcodeWithReg 0xB8 r :: wordBytes imm
  | .movRm32Imm32 d imm => 0xC7 :: (encodeModRM d ++ wordBytes imm)
  | .movRm32R32 d => 0x89 :: encodeModRM d
  | .movR32Rm32 d => 0x8B :: encodeModRM d
  | .addRm32R32 d => 0x01 :: encodeModRM d
  | .addRm32Imm8 d imm => 0x83 :: (encodeModRM d ++ [imm])
  | .subRm32Imm8 d imm => 0x83 :: (encodeModRM d ++ [imm])
  | .incRm32 d => 0xFF :: encodeModRM d
  | .pushR32 r => [opcodeWithReg 0x50 r]
  | .pushImm32 imm => 0x68 :: wordBytes imm
  | .pushImm8 imm => [0x6A, imm]
  | .popR32 r => [opcodeWithReg 0x58 r]
  | .leave => [0xC9]
  | .callRel32 rel => 0xE8 :: wordBytes rel
  | .ret => [0xC3]
  | .jmpRel8 rel => [0xEB, rel]
  | .jmpRel32 rel => 0xE9 :: wordBytes rel

/-! ## The opcode table's numbering -/

/-- Whether sixteen bits match one of the three rows that spec/opcode_table.json numbers over two bytes, the opcode in bits
15..8 and the ModRM byte in bits 7..0: 83 /0, 83 /5 and FF /0. -/
def isTwoByteRow (v : Nat) : Bool :=
  Nat.land v 0xFF38 == 0x8300 || Nat.land v 0xFF38 == 0x8328 || Nat.land v 0xFF38 == 0xFF00

/-- The bytes of an instruction given as the number spec/opcode_table.json numbers its rows by, filled up with zeros to the
longest instruction.  The table's rows are of two kinds: 14 over the opcode byte alone (bit 0 its least significant bit; any
further byte counts on from it), and the three two-byte rows of `isTwoByteRow`, whose opcode stands in the HIGH byte
(notes/assumptions/14.md). -/
def tableBytes (nbits w : Nat) : List Byte :=
  if nbits = 16 ∧ isTwoByteRow w = true then
    [BitVec.ofNat 8 (w / 256), BitVec.ofNat 8 w] ++ List.replicate 9 0
  else (List.range maxLength).map fun k => BitVec.ofNat 8 (w % 2 ^ nbits / 256 ^ k)

/-- What the decoder reads from a word of the opcode table (host interface of the row). -/
def decodeTableWord (nbits w : Nat) : Option Instr :=
  match decode (tableBytes nbits w) with
  | .ok (i, _) => some i
  | .error _ => none

end Sys2Proof
end

