-- ==== Sys2Proof/Machine/Flags.lean ====
section
/-! DEFINITION. The arithmetic of the hardware (R9, R124) and, with it, its flag computations, of which there are NONE: no
instruction computes, writes or reads a flag (R30), so an arithmetic result is the 32-bit value alone. -/

namespace Sys2Proof.Machine

/-- `add32`: the sum modulo 2^32 (R9, R124).  No carry and no overflow is recorded (R30, R124). -/
def add32 (a b : Word) : Word := a + b

/-- `sub32`: the difference modulo 2^32 (R9, R124).  No borrow and no overflow is recorded (R30, R124). -/
def sub32 (a b : Word) : Word := a - b

end Sys2Proof.Machine
end

