-- ==== Sys2Proof/Config.lean ====
section
/-! DEFINITION. The values the spec leaves open as parameters (R7) and this package fixes for ONE purpose: to give
`State.reset` a value.  `State.construct` (Machine/HostInterface.lean) takes each of them as an argument, `State` holds the
capacity, and every statement is about all states, so none of them depends on a number chosen here. -/

namespace Sys2Proof.Config

/-- MEM_SIZE at `State.reset` (R7, OPEN in D1): DESIGN CHOICE, the capacity of the spec's own vectors, unsafe
(notes/assumptions/1.md). -/
def memSize : Nat := 0x10000

/-- EIP0 at `State.reset` (R7, R221, OPEN in D2): DESIGN CHOICE, the entry point of the spec's own vectors, unsafe
(notes/assumptions/2.md). -/
def eip0 : Word := 0x1000

/-- ESP0 at `State.reset` (R7, OPEN in D3): DESIGN CHOICE, the stack seed of the spec's own vectors, unsafe
(notes/assumptions/3.md). -/
def esp0 : Word := 0x8000

/-- What an address that the memory list does not mention reads as (R7 INIT_MEM, OPEN in D4): DESIGN CHOICE, the byte 0,
unsafe for runs from `State.reset` (notes/assumptions/4.md).  Every launch memory can still be written as a list. -/
def unlistedByte : Byte := 0

end Sys2Proof.Config
end

