-- ==== Sys2Proof/Machine/State.lean ====
section
/-! DEFINITION. The state of the machine as plain data (R20 to R35): the register file, the instruction pointer, the flags
word, the memory with its capacity, and the run status.  Also what a step can stop with, and the state after reset. -/

namespace Sys2Proof.Machine

/-- The register file: exactly eight 32-bit general registers (R20, R21). -/
structure RegFile where
  eax : Word
  ecx : Word
  edx : Word
  ebx : Word
  esp : Word
  ebp : Word
  esi : Word
  edi : Word
deriving DecidableEq, Repr

/-- Memory: the bytes that differ from `Config.unlistedByte`, addresses strictly rising (`Memory.wf`).  Every address not
listed reads as `Config.unlistedByte`.  The capacity stands beside it in `State.memSize` (R40). -/
abbrev Memory := List Host.Cell

/-- The four fault kinds and the information each records (R186, D25).  A fault does not end the model: the instruction that
raises it gives a NEXT state whose status is `Status.faulted` (R12, R193), and that state is final (R184).  No meaning and no
step answers the interface's own fault outcome. -/
inductive Fault where
  /-- Raised by the fetch of an opcode whose dispatch slot is absent (R82, R180, R187).  Safe: the spec's own fault. -/
  | unsupportedOpcode (opcode : Byte) (pc : Word)
  /-- Raised by the decoder for 0x83 and 0xFF when the reg field selects no operation (R80, R188).  Safe: the spec's own
  fault. -/
  | unsupportedOpcodeExtension (opcode : Byte) (reg : BitVec 3) (pc : Word)
  /-- Raised by the effective address of a SIB form (R72), and of mode 11, which no instruction asks for (R73).  Safe: the
  spec's own fault. -/
  | unsupportedAddressingForm (mode : Mode) (rm : BitVec 3) (pc : Word)
  /-- Raised by every byte access, of data or of an instruction, at or above the capacity (R42, R183); it records the first
  such address.  Safe: the spec's own fault. -/
  | outOfRange (address : Nat) (pc : Word)
deriving DecidableEq, Repr

/-- The run status (R32). -/
inductive Status where
  | running
  | halted
  | faulted (f : Fault)
deriving DecidableEq, Repr

/-- Why an instruction has no meaning. -/
inductive Refusal where
  /-- Raised by no arm: every instruction of the table has its meaning.  (Safe: an arm that answered it would stop.) -/
  | notModelled (mnemonic : String)
deriving DecidableEq, Repr

/-- The whole persistent state of one machine instance (R31, R32, R35). -/
structure State where
  /-- The general registers (R20). -/
  regs : RegFile
  /-- EIP, the address of the opcode byte of the next instruction (R26). -/
  pc : Word
  /-- The flags word, opaque, read and written by no instruction (R30). -/
  flags : Word
  /-- MEM_SIZE, the capacity in bytes, fixed at creation (R7, R40). -/
  memSize : Nat
  /-- The bytes of memory (R40). -/
  mem : Memory
  /-- The run status (R32). -/
  status : Status
deriving DecidableEq, Repr

/-- The machine right after the constructor (R35, R220): every register 0 but ESP = ESP0, pc = EIP0, flags 0, Running, the
parameters as Config names them, and memory with nothing listed. -/
def State.reset : State where
  regs := { eax := 0, ecx := 0, edx := 0, ebx := 0, esp := Config.esp0, ebp := 0, esi := 0, edi := 0 }
  pc := Config.eip0
  flags := 0
  memSize := Config.memSize
  mem := []
  status := .running

end Sys2Proof.Machine
end

