-- ==== Sys2Proof/Machine/Ops.lean ====
section
/-! DEFINITION. The shared operations: registers (R23, R24), memory (R40 to R47), the stack (R50, R51), the instruction
pointer (R26 to R28), raising a fault (R12, R193) and the end of an instruction (R180, R182). -/

namespace Sys2Proof.Machine

/-! ## Registers -/

/-- Read a register of the file (R10, R23). -/
def RegFile.get (f : RegFile) : Reg → Word
  | .eax => f.eax | .ecx => f.ecx | .edx => f.edx | .ebx => f.ebx
  | .esp => f.esp | .ebp => f.ebp | .esi => f.esi | .edi => f.edi

/-- Write a register of the file; no register is hard-wired (R10, R21, R23). -/
def RegFile.set (f : RegFile) (r : Reg) (v : Word) : RegFile :=
  match r with
  | .eax => { f with eax := v }
  | .ecx => { f with ecx := v }
  | .edx => { f with edx := v }
  | .ebx => { f with ebx := v }
  | .esp => { f with esp := v }
  | .ebp => { f with ebp := v }
  | .esi => { f with esi := v }
  | .edi => { f with edi := v }

/-- `x[i]` (R10, R23). -/
def State.getReg (s : State) (r : Reg) : Word := s.regs.get r

/-- `x[i] <- v` (R10, R23). -/
def State.setReg (s : State) (r : Reg) (v : Word) : State := { s with regs := s.regs.set r v }

/-- The 32-bit register whose half an 8-bit register index names: indexes 0 to 3 and 4 to 7 both name EAX, ECX, EDX, EBX
(R24, D18). -/
def byteRegHome (i : BitVec 3) : Reg := Reg.ofBits (i &&& 3)

/-- Whether an 8-bit register index names the high half, bits 15..8 (R24). -/
def byteRegHigh (i : BitVec 3) : Bool := i.getLsbD 2

/-- `get_register8` (R24): AL, CL, DL, BL, AH, CH, DH, BH.  No instruction calls it (R25). -/
def State.getReg8 (s : State) (i : BitVec 3) : Byte :=
  if byteRegHigh i then (s.getReg (byteRegHome i)).extractLsb' 8 8
  else (s.getReg (byteRegHome i)).extractLsb' 0 8

/-- `set_register8` (R24): writes the eight bits it names and keeps the other 24.  No instruction calls it (R25). -/
def State.setReg8 (s : State) (i : BitVec 3) (v : Byte) : State :=
  let old := s.getReg (byteRegHome i)
  s.setReg (byteRegHome i)
    (if byteRegHigh i then (old &&& 0xFFFF00FF) ||| (zext32 v <<< 8) else (old &&& 0xFFFFFF00) ||| zext32 v)

/-! ## Memory as data -/

/-- The canonical form: addresses strictly rising, and no entry equal to what an unlisted address reads as. -/
abbrev Memory.wf (m : Memory) : Prop :=
  m.Pairwise (fun c d => c.1 < d.1) ∧ ∀ c ∈ m, c.2 ≠ Config.unlistedByte

/-- `M[a]` (R11). -/
def Memory.read : Memory → Nat → Byte
  | [], _ => Config.unlistedByte
  | c :: rest, a => if c.1 = a then c.2 else Memory.read rest a

/-- `M[a] <- v`, keeping the canonical form (R11). -/
def Memory.write : Memory → Nat → Byte → Memory
  | [], a, v => if v = Config.unlistedByte then [] else [(a, v)]
  | c :: rest, a, v =>
    if c.1 < a then c :: Memory.write rest a v
    else
      let tail := if c.1 = a then rest else c :: rest
      if v = Config.unlistedByte then tail else (a, v) :: tail

/-- The bytes `vs` written at `a`, `a + 1`, ..., each only if its address is below `limit`: what a store leaves when it runs
into the end of memory (R44), and the whole store when it does not. -/
def Memory.writeBelow (limit : Nat) (m : Memory) (a : Nat) : List Byte → Memory
  | [] => m
  | v :: vs => Memory.writeBelow limit (if a < limit then Memory.write m a v else m) (a + 1) vs

/-- The little-endian word at `a` (R43). -/
def Memory.readWord (m : Memory) (a : Nat) : Word :=
  wordOfBytes (Memory.read m a) (Memory.read m (a + 1)) (Memory.read m (a + 2)) (Memory.read m (a + 3))

/-- The four bytes of a word written at `a`, the least significant first (R44). -/
def Memory.writeWord (m : Memory) (a : Nat) (v : Word) : Memory :=
  Memory.write (Memory.write (Memory.write (Memory.write m a (byteOfWord v 0)) (a + 1) (byteOfWord v 1))
    (a + 2) (byteOfWord v 2)) (a + 3) (byteOfWord v 3)

/-! ## Faults -/

/-- A raised fault and the state the instruction had made up to that point (R12, R189). -/
structure Raised where
  fault : Fault
  state : State
deriving DecidableEq, Repr

/-- `raise`: the rest of the rule is not performed (R12). -/
def raise {α : Type} (f : Fault) (s : State) : Except Raised α := .error ⟨f, s⟩

/-- Taking a fault, the one exception of this hardware (R12, R193): the status becomes Faulted with its kind and
information; nothing is saved, no mode changes and control goes nowhere.  There is no return from it (R194). -/
def takeFault (f : Fault) (s : State) : State := { s with status := .faulted f }

/-- The end of an instruction's rule: its final state, or the state with the fault taken (R12). -/
def finish : Except Raised State → Host.Outcome State Fault Refusal
  | .ok s => .next s
  | .error r => .next (takeFault r.fault r.state)

/-! ## Memory accesses -/

/-- `MemRead(a, 1)` (R42).  The address is a natural number, so it never wraps (R45). -/
def memRead8 (a : Nat) (s : State) : Except Raised Byte :=
  if a < s.memSize then .ok (Memory.read s.mem a) else raise (.outOfRange a s.pc) s

/-- `MemWrite(a, 1, v)` (R42). -/
def memWrite8 (a : Nat) (v : Byte) (s : State) : Except Raised State :=
  if a < s.memSize then .ok { s with mem := Memory.write s.mem a v } else raise (.outOfRange a s.pc) s

/-- `MemRead(a, 4)`: four byte reads at ascending addresses (R43, D8). -/
def memRead32 (a : Nat) (s : State) : Except Raised Word := do
  let b0 ← memRead8 a s
  let b1 ← memRead8 (a + 1) s
  let b2 ← memRead8 (a + 2) s
  let b3 ← memRead8 (a + 3) s
  return wordOfBytes b0 b1 b2 b3

/-- `MemWrite(a, 4, v)`: four byte writes at ascending addresses; the ones before a fault stay (R44, D8, D9). -/
def memWrite32 (a : Nat) (v : Word) (s : State) : Except Raised State := do
  let s ← memWrite8 a (byteOfWord v 0) s
  let s ← memWrite8 (a + 1) (byteOfWord v 1) s
  let s ← memWrite8 (a + 2) (byteOfWord v 2) s
  memWrite8 (a + 3) (byteOfWord v 3) s

/-! ## The stack -/

/-- `push32(v)`: ESP is decremented before the store and stays so if the store faults (R50). -/
def push32 (v : Word) (s : State) : Except Raised State :=
  let s := s.setReg .esp (sub32 (s.getReg .esp) 4)
  memWrite32 (s.getReg .esp).toNat v s

/-- `pop32()`: the word at ESP, and the state with ESP incremented (R51). -/
def pop32 (s : State) : Except Raised (Word × State) := do
  let v ← memRead32 (s.getReg .esp).toNat s
  return (v, s.setReg .esp (add32 (s.getReg .esp) 4))

/-! ## The instruction pointer -/

/-- `pc <- t` (R10). -/
def State.setPc (s : State) (t : Word) : State := { s with pc := t }

/-- `pc <- add32(pc, n)`, the last line of a sequential instruction (R27, R28). -/
def State.advance (s : State) (n : Nat) : State := s.setPc (add32 s.pc (BitVec.ofNat 32 n))

/-! ## The end of a step -/

/-- Check-Terminal (R180, R182): after an instruction that raised no fault, a pc of 0 halts the machine. -/
def checkTerminal (s : State) : State :=
  if s.status = .running ∧ s.pc = 0 then { s with status := .halted } else s

/-- Check-Terminal on the outcome of an instruction (R180). -/
def afterExecute : Host.Outcome State Fault Refusal → Host.Outcome State Fault Refusal
  | .next s => .next (checkTerminal s)
  | .fault f => .fault f
  | .refused r => .refused r

end Sys2Proof.Machine
end

