-- ==== Sys2Proof/Machine/Operands.lean ====
section
/-! DEFINITION. The operand forms: the effective address (R71 to R74), the r/m operand (R75, R76) and the register operand
of the reg field (R77).  Immediates and offsets (R78) are extended by `sext32` and `zext32` where an instruction's rule says so. -/

namespace Sys2Proof.Machine

/-- `EA(d)` (R71): base plus displacement modulo 2^32, the absolute form of mode 00, the SIB escape fault in all three memory
modes (R72, conflict C1), and the fault of mode 11 (R73), formed from the registers at the moment of the access (R74).  In a
well-formed descriptor `d.disp.value` is the displacement the mode has (R67). -/
def effectiveAddress (d : Descriptor) (s : State) : Except Raised Word :=
  match d.mode with
  | .m00 =>
    if d.rm = 4 then raise (.unsupportedAddressingForm .m00 d.rm s.pc) s
    else if d.rm = 5 then .ok d.disp.value
    else .ok (s.getReg (Reg.ofBits d.rm))
  | .m01 =>
    if d.rm = 4 then raise (.unsupportedAddressingForm .m01 d.rm s.pc) s
    else .ok (add32 (s.getReg (Reg.ofBits d.rm)) d.disp.value)
  | .m10 =>
    if d.rm = 4 then raise (.unsupportedAddressingForm .m10 d.rm s.pc) s
    else .ok (add32 (s.getReg (Reg.ofBits d.rm)) d.disp.value)
  | .m11 => raise (.unsupportedAddressingForm .m11 d.rm s.pc) s

/-- `get_rm32(d)` (R75): mode 11 is tested first. -/
def getRm32 (d : Descriptor) (s : State) : Except Raised Word :=
  match d.mode with
  | .m11 => .ok (s.getReg (Reg.ofBits d.rm))
  | _ => do
    let a ← effectiveAddress d s
    memRead32 a.toNat s

/-- `set_rm32(d, v)` (R76): mode 11 is tested first. -/
def setRm32 (d : Descriptor) (v : Word) (s : State) : Except Raised State :=
  match d.mode with
  | .m11 => .ok (s.setReg (Reg.ofBits d.rm) v)
  | _ => do
    let a ← effectiveAddress d s
    memWrite32 a.toNat v s

/-- `get_r32(d)`, the register of the reg field (R77). -/
def getR32 (d : Descriptor) (s : State) : Word := s.getReg (Reg.ofBits d.reg)

/-- `set_r32(d, v)` (R77). -/
def setR32 (d : Descriptor) (v : Word) (s : State) : State := s.setReg (Reg.ofBits d.reg) v

end Sys2Proof.Machine
end

