-- ==== Sys2Proof/Machine/Arith.lean ====
section
/-! DEFINITION. Integer arithmetic: ADD, SUB, INC (41_arith.md).  Results are modulo 2^32 and no flag is written (R124). -/

namespace Sys2Proof.Machine

/-- ADD r/m32, r32 (R120). -/
def execAddRm32R32 (d : Descriptor) (s : State) : Host.Outcome State Fault Refusal :=
  finish do
    let a ← getRm32 d s
    let b := getR32 d s
    let s ← setRm32 d (add32 a b) s
    return s.advance (1 + d.length)

/-- ADD r/m32, imm8, the immediate sign-extended (R121). -/
def execAddRm32Imm8 (d : Descriptor) (imm : Byte) (s : State) : Host.Outcome State Fault Refusal :=
  finish do
    let a ← getRm32 d s
    let s ← setRm32 d (add32 a (sext32 imm)) s
    return s.advance (2 + d.length)

/-- SUB r/m32, imm8, the immediate sign-extended (R122). -/
def execSubRm32Imm8 (d : Descriptor) (imm : Byte) (s : State) : Host.Outcome State Fault Refusal :=
  finish do
    let a ← getRm32 d s
    let s ← setRm32 d (sub32 a (sext32 imm)) s
    return s.advance (2 + d.length)

/-- INC r/m32 (R123). -/
def execIncRm32 (d : Descriptor) (s : State) : Host.Outcome State Fault Refusal :=
  finish do
    let a ← getRm32 d s
    let s ← setRm32 d (add32 a 1) s
    return s.advance (1 + d.length)

end Sys2Proof.Machine
end

