-- ==== Sys2Proof/Machine/Control.lean ====
section
/-! DEFINITION. Control transfer: CALL, RET, JMP (43_control.md).  A target is any 32-bit value and is not checked here
(R164); reaching 0 is noticed by Check-Terminal (R182). -/

namespace Sys2Proof.Machine

/-- CALL rel32 (R160): pushes the address of the next instruction. -/
def execCallRel32 (rel : Word) (s : State) : Host.Outcome State Fault Refusal :=
  finish do
    let ret := add32 s.pc 5
    let s ← push32 ret s
    return s.setPc (add32 ret rel)

/-- RET (R161). -/
def execRet (s : State) : Host.Outcome State Fault Refusal :=
  finish do
    let (v, s) ← pop32 s
    return s.setPc v

/-- JMP rel8, the offset sign-extended (R162). -/
def execJmpRel8 (rel : Byte) (s : State) : Host.Outcome State Fault Refusal :=
  finish (.ok (s.setPc (add32 (add32 s.pc 2) (sext32 rel))))

/-- JMP rel32 (R163). -/
def execJmpRel32 (rel : Word) (s : State) : Host.Outcome State Fault Refusal :=
  finish (.ok (s.setPc (add32 (add32 s.pc 5) rel)))

end Sys2Proof.Machine
end

