-- ==== Sys2Proof/Machine/Mov.lean ====
section
/-! DEFINITION. Data movement: the four MOV forms (40_mov.md).  None writes a flag. -/

namespace Sys2Proof.Machine

/-- MOV r32, imm32 (R100). -/
def execMovR32Imm32 (r : Reg) (imm : Word) (s : State) : Host.Outcome State Fault Refusal :=
  finish (.ok ((s.setReg r imm).advance 5))

/-- MOV r/m32, imm32 (R101); the reg field is not examined (R81). -/
def execMovRm32Imm32 (d : Descriptor) (imm : Word) (s : State) : Host.Outcome State Fault Refusal :=
  finish do
    let s ← setRm32 d imm s
    return s.advance (5 + d.length)

/-- MOV r/m32, r32 (R102). -/
def execMovRm32R32 (d : Descriptor) (s : State) : Host.Outcome State Fault Refusal :=
  finish do
    let v := getR32 d s
    let s ← setRm32 d v s
    return s.advance (1 + d.length)

/-- MOV r32, r/m32 (R103). -/
def execMovR32Rm32 (d : Descriptor) (s : State) : Host.Outcome State Fault Refusal :=
  finish do
    let v ← getRm32 d s
    let s := setR32 d v s
    return s.advance (1 + d.length)

end Sys2Proof.Machine
end

