-- ==== Sys2Proof/Machine/Stack.lean ====
section
/-! DEFINITION. Stack operations: PUSH, POP, LEAVE (42_stack.md).  None writes a flag. -/

namespace Sys2Proof.Machine

/-- PUSH r32 (R140): the value is read before ESP is decremented. -/
def execPushR32 (r : Reg) (s : State) : Host.Outcome State Fault Refusal :=
  finish do
    let v := s.getReg r
    let s ← push32 v s
    return s.advance 1

/-- PUSH imm32 (R141). -/
def execPushImm32 (imm : Word) (s : State) : Host.Outcome State Fault Refusal :=
  finish do
    let s ← push32 imm s
    return s.advance 5

/-- PUSH imm8, the immediate ZERO-extended (R142, R78). -/
def execPushImm8 (imm : Byte) (s : State) : Host.Outcome State Fault Refusal :=
  finish do
    let s ← push32 (zext32 imm) s
    return s.advance 2

/-- POP r32 (R143): the register write comes after ESP is incremented, so POP ESP leaves the popped value. -/
def execPopR32 (r : Reg) (s : State) : Host.Outcome State Fault Refusal :=
  finish do
    let (v, s) ← pop32 s
    return (s.setReg r v).advance 1

/-- LEAVE (R144): if the pop faults, ESP has already become EBP. -/
def execLeave (s : State) : Host.Outcome State Fault Refusal :=
  finish do
    let s := s.setReg .esp (s.getReg .ebp)
    let (v, s) ← pop32 s
    return (s.setReg .ebp v).advance 1

end Sys2Proof.Machine
end

