-- ==== Sys2Proof/Machine/Dispatch.lean ====
section
/-! DEFINITION. The Execute stage (R180): one arm per instruction. -/

namespace Sys2Proof.Machine

def exec (i : Instr) (s : State) : Host.Outcome State Fault Refusal :=
  match i with
  | .movR32Imm32 r imm => Sys2Proof.Machine.execMovR32Imm32 r imm s
  | .movRm32Imm32 d imm => Sys2Proof.Machine.execMovRm32Imm32 d imm s
  | .movRm32R32 d => Sys2Proof.Machine.execMovRm32R32 d s
  | .movR32Rm32 d => Sys2Proof.Machine.execMovR32Rm32 d s
  | .addRm32R32 d => Sys2Proof.Machine.execAddRm32R32 d s
  | .addRm32Imm8 d imm => Sys2Proof.Machine.execAddRm32Imm8 d imm s
  | .subRm32Imm8 d imm => Sys2Proof.Machine.execSubRm32Imm8 d imm s
  | .incRm32 d => Sys2Proof.Machine.execIncRm32 d s
  | .pushR32 r => Sys2Proof.Machine.execPushR32 r s
  | .pushImm32 imm => Sys2Proof.Machine.execPushImm32 imm s
  | .pushImm8 imm => Sys2Proof.Machine.execPushImm8 imm s
  | .popR32 r => Sys2Proof.Machine.execPopR32 r s
  | .leave => Sys2Proof.Machine.execLeave s
  | .callRel32 rel => Sys2Proof.Machine.execCallRel32 rel s
  | .ret => Sys2Proof.Machine.execRet s
  | .jmpRel8 rel => Sys2Proof.Machine.execJmpRel8 rel s
  | .jmpRel32 rel => Sys2Proof.Machine.execJmpRel32 rel s

end Sys2Proof.Machine
end

