-- ==== Sys2Proof/Machine/Fetch.lean ====
section
/-! DEFINITION. The Fetch and Dispatch stages (R48, R180, R181): the bytes at pc, the instruction they decode to, and the
fault when they do not. -/

namespace Sys2Proof.Machine

/-- The bytes of memory from pc on, up to the longest instruction and the end of memory (R48).  Addresses are natural
numbers and do not wrap (R45).  Reading a byte has no effect (R53), so a window longer than the instruction changes nothing:
`decode` never looks past what the instruction's rule reads (notes/assumptions/9.md). -/
def fetchWindow (s : State) : List Byte :=
  (List.range (min maxLength (s.memSize - s.pc.toNat))).map fun k => Memory.read s.mem (s.pc.toNat + k)

/-- The fault a rejection of the decoder stands for.  A missing byte is the one just past the window, the first at or above
the capacity (R42, R70, R183); with pc itself out of range the window is empty and that byte is at pc (R183). -/
def fetchFault (s : State) : DecodeError → Fault
  | .missing => .outOfRange (s.pc.toNat + (fetchWindow s).length) s.pc
  | .opcode opcode => .unsupportedOpcode opcode s.pc
  | .extension opcode reg => .unsupportedOpcodeExtension opcode reg s.pc

/-- Fetch and Dispatch (R180): the instruction at pc, or its fault with nothing changed (R183, R187, R188). -/
def fetch (s : State) : Except Raised Instr :=
  match decode (fetchWindow s) with
  | .ok (i, _) => .ok i
  | .error e => raise (fetchFault s e) s

/-- The memory with `bytes` placed at pc, as far as they lie below the capacity. -/
def placeAtPc (s : State) (bytes : List Byte) : Memory :=
  Memory.writeBelow s.memSize s.mem s.pc.toNat bytes

end Sys2Proof.Machine
end

