-- ==== Sys2Proof/Machine/Step.lean ====
section
/-! DEFINITION. One step (R180, and the host's `step()` of R198): fetch, dispatch, execute, check-terminal while the status
is Running; Halted and Faulted are final (R184). -/

namespace Sys2Proof.Machine

/-- One step.  In a final state no instruction runs and nothing changes (R184, R198; notes/assumptions/6.md). -/
def step (s : State) : Host.Outcome State Fault Refusal :=
  match s.status with
  | .running =>
    match fetch s with
    | .ok i => afterExecute (exec i s)
    | .error r => .next (takeFault r.fault r.state)
  | .halted => .next s
  | .faulted _ => .next s

/-- `s` with the instruction of a word of the opcode table stored at pc (its bytes as `tableBytes` lays them out, zeros up to
the longest instruction), and Running, since only a running machine fetches (R180).  It stands for the host's load of a
program (R198, R223; notes/assumptions/5.md).  It needs pc and the 10 bytes after it below the capacity. -/
def State.withFetchWord (s : State) (nbits w : Nat) : State :=
  { s with mem := placeAtPc s (tableBytes nbits w), status := .running }

end Sys2Proof.Machine
end

