-- ==== Sys2Proof/Machine/HostInterface.lean ====
section
/-! DEFINITION. The host's side of the machine (R198 to R200, R220, R223): the constructor with its parameters, `load`,
`step`, `run`, `dump`, and a session that keeps `load` to the time before the first step. -/

namespace Sys2Proof.Machine

/-- Memory holding the given cells below the capacity, in canonical form; of two cells at one address the later counts. -/
def Memory.ofCells (memSize : Nat) (cells : List Host.Cell) : Memory :=
  cells.foldl (fun m c => if c.1 < memSize then Memory.write m c.1 c.2 else m) []

/-- The constructor `new(MEM_SIZE, EIP0, ESP0)` over a background of memory (R198, R220).  All four parameters of R7 are
arguments; `background` lists what differs from `Config.unlistedByte`, so any launch memory can be given. -/
def State.construct (memSize : Nat) (eip0 esp0 : Word) (background : List Host.Cell) : State where
  regs := { eax := 0, ecx := 0, edx := 0, ebx := 0, esp := esp0, ebp := 0, esi := 0, edi := 0 }
  pc := eip0
  flags := 0
  memSize := memSize
  mem := Memory.ofCells memSize background
  status := .running

/-- `load(offset, bytes)` (R198): refused as a whole, writing nothing, when the bytes do not all fit (D20). -/
def load (offset : Nat) (bytes : List Byte) (s : State) : Option State :=
  if offset + bytes.length ≤ s.memSize then
    some { s with mem := Memory.writeBelow s.memSize s.mem offset bytes }
  else none

/-- `dump()` (R199): the eight registers in index order, then EIP.  The flags word is not in it (conflict C6). -/
def dump (s : State) : List Word :=
  [s.getReg .eax, s.getReg .ecx, s.getReg .edx, s.getReg .ebx, s.getReg .esp, s.getReg .ebp, s.getReg .esi,
    s.getReg .edi, s.pc]

/-- The eight hexadecimal digits of a dumped value, the most significant first (R199).  How a digit is spelled is a parameter
of the surrounding software (D19). -/
def hexDigits (v : Word) : List (BitVec 4) :=
  [v.extractLsb' 28 4, v.extractLsb' 24 4, v.extractLsb' 20 4, v.extractLsb' 16 4, v.extractLsb' 12 4,
    v.extractLsb' 8 4, v.extractLsb' 4 4, v.extractLsb' 0 4]

/-- The state a step gives; the state itself where a step would answer anything but a next state. -/
def stepState (s : State) : State :=
  match step s with
  | .next t => t
  | .fault _ => s
  | .refused _ => s

/-- `run()` cut off after `fuel` steps (R198): steps until the status is not Running.  The uncut run need not return (R203). -/
def runFuel : Nat → State → State
  | 0, s => s
  | fuel + 1, s => if s.status = .running then runFuel fuel (stepState s) else s

/-- A machine in its host's hands: its state, and whether a step has been asked for (R200).  `begun` is the host protocol's,
not a part of the machine's state. -/
structure Session where
  machine : State
  begun   : Bool
deriving DecidableEq, Repr

/-- What the host can ask of a machine it has constructed (R198). -/
inductive HostRequest where
  | load (offset : Nat) (bytes : List Byte)
  | step
  | run (fuel : Nat)
  | dump
deriving DecidableEq, Repr

/-- What the host gets back (R198). -/
inductive HostReply where
  | loaded
  | loadRefused
  | status (st : Status)
  | dumped (values : List Word)
deriving DecidableEq, Repr

/-- A fresh session (R198 `new`). -/
def Session.construct (memSize : Nat) (eip0 esp0 : Word) (background : List Host.Cell) : Session :=
  { machine := State.construct memSize eip0 esp0 background, begun := false }

/-- The host's operations (R198): `load` only before the first step and only if it fits (R200, D20); `dump` at any time. -/
def Session.serve (h : Session) : HostRequest → HostReply × Session
  | .load offset bytes =>
    if h.begun then (.loadRefused, h)
    else
      match Machine.load offset bytes h.machine with
      | some t => (.loaded, { h with machine := t })
      | none => (.loadRefused, h)
  | .step => (.status (stepState h.machine).status, { machine := stepState h.machine, begun := true })
  | .run fuel => (.status (runFuel fuel h.machine).status, { machine := runFuel fuel h.machine, begun := true })
  | .dump => (.dumped (Machine.dump h.machine), h)

end Sys2Proof.Machine
end

