-- ==== Sys2Proof/Safety.lean ====
section
/-! DEFINITION. What counts as a safe run, in the terms statements use: the invariant of the machine's state, the normal end
of a run and a run without a fault (R182, R184, R185, R191). -/

namespace Sys2Proof.Machine

/-- The information of a fault agrees with the state it stopped (R42, R72, R80, R82, R186): the recorded pc is the
instruction's, an out-of-range address is at or above the capacity, and the recorded fields are ones that fault. -/
def Fault.Fits (f : Fault) (s : State) : Prop :=
  match f with
  | .unsupportedOpcode opcode pc => pc = s.pc ∧ dispatch opcode = none
  | .unsupportedOpcodeExtension opcode reg pc =>
    pc = s.pc ∧ reg ≠ 0 ∧ (opcode = 0xFF ∨ (opcode = 0x83 ∧ reg ≠ 5))
  | .unsupportedAddressingForm mode rm pc => pc = s.pc ∧ mode ≠ .m11 ∧ rm = 4
  | .outOfRange address pc => pc = s.pc ∧ s.memSize ≤ address

/-- The status agrees with the rest of the state: a halted machine stands at the sentinel 0 (R182), a faulted one at the
instruction that raised the fault (R187 to R189). -/
def State.StatusFits (s : State) : Prop :=
  match s.status with
  | .running => True
  | .halted => s.pc = 0
  | .faulted f => f.Fits s

/-- The invariant of the machine: the capacity is one R7 allows, the memory is in canonical form and lists no address at or
above the capacity, and the status fits the state. -/
structure State.Inv (s : State) : Prop where
  capacity_pos : 1 ≤ s.memSize
  capacity_le  : s.memSize ≤ 2 ^ 32
  mem_wf       : Memory.wf s.mem
  mem_below    : ∀ c ∈ s.mem, c.1 < s.memSize
  status_fits  : s.StatusFits

/-- The run from `s` ends normally within `k` steps (R182, R185). -/
def EndsNormally (k : Nat) (s : State) : Prop :=
  ∃ t, Sys2Proof.core.run k s = .next t ∧ t.status = .halted

/-- No state of the run from `s` is faulted: the premise every claim about a program takes (R191). -/
def NeverFaults (s : State) : Prop :=
  ∀ (k : Nat) (t : State), Sys2Proof.core.run k s = .next t → ∀ f, t.status ≠ .faulted f

/-- The bytes at pc are the encoding of `i`, all below the capacity, and the machine is Running: the next step runs `i`. -/
structure State.Holds (s : State) (i : Instr) : Prop where
  running  : s.status = .running
  in_range : s.pc.toNat + (encode i).length ≤ s.memSize
  bytes    : ∀ k (h : k < (encode i).length), Memory.read s.mem (s.pc.toNat + k) = (encode i)[k]

/-- Memory ends inside the instruction `i` at pc: its first `k` bytes are the last ones below the capacity, and byte `k`, which
the instruction has, would be the first at or above it. -/
structure State.CutShort (s : State) (i : Instr) : Prop where
  running : s.status = .running
  cut     : ∃ k, s.pc.toNat + k = s.memSize ∧ ∃ h : k < (encode i).length,
    ∀ j (hj : j < k), Memory.read s.mem (s.pc.toNat + j) = (encode i)[j]'(Nat.lt_trans hj h)

/-- `s` stopped by an access of four bytes that starts at `a` and does not fit: Faulted with the first address at or above the
capacity (R42 to R44). -/
def State.stopOutOfRange (s : State) (a : Nat) : State :=
  takeFault (.outOfRange (max a s.memSize) s.pc) s

end Sys2Proof.Machine
end

