-- ==== Sys2Proof/Certificates/Slice0/Obligations.lean ====
section
/-! DEFINITION. The statements for the provers.  Each `def Obligations.<Name> : Prop` says what the spec's rules say the machine
does; OBLIGATIONS.json lists them with the rules and sections they come from.  Where a clause is about the registers or the
memory of a FAULTED state it rests on the spec's own decision D9 (R189), and R191 forbids a claim about a program to read it. -/

namespace Sys2Proof.Statements

open Sys2Proof.Machine

/-- The 219 opcodes without a handler, as R82 lists them. -/
def absentOpcode (n : Nat) : Prop :=
  n = 0x00 ∨ (0x02 ≤ n ∧ n ≤ 0x4F) ∨ (0x60 ≤ n ∧ n ≤ 0x67) ∨ n = 0x69 ∨ (0x6B ≤ n ∧ n ≤ 0x82) ∨
  (0x84 ≤ n ∧ n ≤ 0x88) ∨ n = 0x8A ∨ (0x8C ≤ n ∧ n ≤ 0xB7) ∨ (0xC0 ≤ n ∧ n ≤ 0xC2) ∨
  (0xC4 ≤ n ∧ n ≤ 0xC6) ∨ n = 0xC8 ∨ (0xCA ≤ n ∧ n ≤ 0xE7) ∨ n = 0xEA ∨ (0xEC ≤ n ∧ n ≤ 0xFE)

/-- The number of bytes of the ModRM region a ModRM byte begins, in the numbers of R68's table: mode 11 has the byte alone; the
others add the SIB byte for rm 100b and the displacement of the mode. -/
def regionLength (modrm : Byte) : Nat :=
  let mode := modrm.extractLsb' 6 2
  let rm := modrm.extractLsb' 0 3
  if mode = 3 then 1
  else (if mode = 0 then (if rm = 5 then 5 else 1) else if mode = 1 then 2 else 5) + (if rm = 4 then 1 else 0)

/-- The register an instruction of register destination writes: MOV r32, imm32; MOV r32, r/m32 in every mode; and the six
instructions with an r/m destination in mode 11. -/
def registerDestination : Instr → Option Reg
  | .movR32Imm32 r _ => some r
  | .movR32Rm32 d => some (Reg.ofBits d.reg)
  | .movRm32Imm32 d _ => if d.mode = .m11 then some (Reg.ofBits d.rm) else none
  | .movRm32R32 d => if d.mode = .m11 then some (Reg.ofBits d.rm) else none
  | .addRm32R32 d => if d.mode = .m11 then some (Reg.ofBits d.rm) else none
  | .addRm32Imm8 d _ => if d.mode = .m11 then some (Reg.ofBits d.rm) else none
  | .subRm32Imm8 d _ => if d.mode = .m11 then some (Reg.ofBits d.rm) else none
  | .incRm32 d => if d.mode = .m11 then some (Reg.ofBits d.rm) else none
  | .pushR32 _ => none
  | .pushImm32 _ => none
  | .pushImm8 _ => none
  | .popR32 _ => none
  | .leave => none
  | .callRel32 _ => none
  | .ret => none
  | .jmpRel8 _ => none
  | .jmpRel32 _ => none

/-- The descriptor of an instruction that stores to its r/m operand when the mode is not 11. -/
def memoryDestination : Instr → Option Descriptor
  | .movRm32Imm32 d _ => some d
  | .movRm32R32 d => some d
  | .addRm32R32 d => some d
  | .addRm32Imm8 d _ => some d
  | .subRm32Imm8 d _ => some d
  | .incRm32 d => some d
  | .movR32Imm32 _ _ => none
  | .movR32Rm32 _ => none
  | .pushR32 _ => none
  | .pushImm32 _ => none
  | .pushImm8 _ => none
  | .popR32 _ => none
  | .leave => none
  | .callRel32 _ => none
  | .ret => none
  | .jmpRel8 _ => none
  | .jmpRel32 _ => none

/-- The instructions that push: three PUSH forms and CALL. -/
def pushes (i : Instr) : Prop :=
  (∃ r, i = .pushR32 r) ∨ (∃ v, i = .pushImm32 v) ∨ (∃ v, i = .pushImm8 v) ∨ (∃ v, i = .callRel32 v)

/-- The registers an instruction that pops may change: POP its register and ESP, LEAVE ESP and EBP, RET ESP. -/
def popChanges : Instr → Option (List Reg)
  | .popR32 r => some [.esp, r]
  | .leave => some [.esp, .ebp]
  | .ret => some [.esp]
  | .movR32Imm32 _ _ => none
  | .movRm32Imm32 _ _ => none
  | .movRm32R32 _ => none
  | .movR32Rm32 _ => none
  | .addRm32R32 _ => none
  | .addRm32Imm8 _ _ => none
  | .subRm32Imm8 _ _ => none
  | .incRm32 _ => none
  | .pushR32 _ => none
  | .pushImm32 _ => none
  | .pushImm8 _ => none
  | .callRel32 _ => none
  | .jmpRel8 _ => none
  | .jmpRel32 _ => none

/-- What every frame says beside registers and memory: the flags word and the capacity are unchanged, and the status is, unless
the instruction faulted. -/
def restUnchanged (s t : State) : Prop :=
  t.flags = s.flags ∧ t.memSize = s.memSize ∧ (t.status = s.status ∨ ∃ f, t.status = .faulted f)

/-- ESP in the state an OutOfRange fault of an instruction leaves (R189 b, c; decision D9): decremented by a push, EBP after
LEAVE, unchanged otherwise. -/
def faultedEsp : Instr → State → Word
  | .pushR32 _, s => s.getReg .esp - 4
  | .pushImm32 _, s => s.getReg .esp - 4
  | .pushImm8 _, s => s.getReg .esp - 4
  | .callRel32 _, s => s.getReg .esp - 4
  | .leave, s => s.getReg .ebp
  | .popR32 _, s => s.getReg .esp
  | .ret, s => s.getReg .esp
  | .movR32Imm32 _ _, s => s.getReg .esp
  | .movRm32Imm32 _ _, s => s.getReg .esp
  | .movRm32R32 _, s => s.getReg .esp
  | .movR32Rm32 _, s => s.getReg .esp
  | .addRm32R32 _, s => s.getReg .esp
  | .addRm32Imm8 _ _, s => s.getReg .esp
  | .subRm32Imm8 _ _, s => s.getReg .esp
  | .incRm32 _, s => s.getReg .esp
  | .jmpRel8 _, s => s.getReg .esp
  | .jmpRel32 _, s => s.getReg .esp

end Sys2Proof.Statements

open Sys2Proof Sys2Proof.Machine Sys2Proof.Statements

/-! ## Registers and memory -/

/-- R23: the 32-bit register accessor, for all eight registers. -/
def Obligations.RegisterWriteReadsBackAndChangesNothingElse : Prop :=
  ∀ (s : State) (r : Reg) (v : Word),
    s.getReg r = s.regs.get r ∧ (s.setReg r v).getReg r = v ∧
    (∀ q, q ≠ r → (s.setReg r v).getReg q = s.getReg q) ∧
    s.setReg r v = { s with regs := (s.setReg r v).regs }

/-- R24: the eight 8-bit registers and what a write to one leaves alone.  That index 0 to 3 is the low byte and 4 to 7 bits
15..8 of EAX, ECX, EDX, EBX is the spec's own choice D18 (log entry 10). -/
def Obligations.ByteRegisterWriteChangesOnlyItsByte : Prop :=
  ∀ (s : State) (i : BitVec 3) (v : Byte),
    s.getReg8 0 = s.regs.eax.extractLsb' 0 8 ∧ s.getReg8 1 = s.regs.ecx.extractLsb' 0 8 ∧
    s.getReg8 2 = s.regs.edx.extractLsb' 0 8 ∧ s.getReg8 3 = s.regs.ebx.extractLsb' 0 8 ∧
    s.getReg8 4 = s.regs.eax.extractLsb' 8 8 ∧ s.getReg8 5 = s.regs.ecx.extractLsb' 8 8 ∧
    s.getReg8 6 = s.regs.edx.extractLsb' 8 8 ∧ s.getReg8 7 = s.regs.ebx.extractLsb' 8 8 ∧
    (s.setReg8 i v).getReg8 i = v ∧
    (∀ j, j ≠ i → (s.setReg8 i v).getReg8 j = s.getReg8 j) ∧
    (∀ r, ((s.setReg8 i v).getReg r).extractLsb' 16 16 = (s.getReg r).extractLsb' 16 16) ∧
    (∀ r, r = .esp ∨ r = .ebp ∨ r = .esi ∨ r = .edi → (s.setReg8 i v).getReg r = s.getReg r) ∧
    s.setReg8 i v = { s with regs := (s.setReg8 i v).regs }

/-- R47: a word store and load round trip at every in-range address, aligned or not, little-endian; and a load of whatever
bytes are there. -/
def Obligations.WordStoreThenLoadReturnsTheWord : Prop :=
  ∀ (s : State) (a : Nat) (v : Word), Memory.wf s.mem → a + 3 < s.memSize →
    (∃ t, memWrite32 a v s = .ok t ∧ memRead32 a t = .ok v ∧
      ∀ k, k < 4 → memRead8 (a + k) t = .ok (v.extractLsb' (8 * k) 8)) ∧
    memRead32 a s = .ok ((Memory.read s.mem a).setWidth 32 ||| (Memory.read s.mem (a + 1)).setWidth 32 <<< 8 |||
      (Memory.read s.mem (a + 2)).setWidth 32 <<< 16 ||| (Memory.read s.mem (a + 3)).setWidth 32 <<< 24)

/-- R44 with D8, D9: a word store that does not fit raises OutOfRange at its first byte at or above the capacity; the bytes
below it are written and nothing else changes. -/
def Obligations.StraddlingStoreKeepsItsInRangeBytes : Prop :=
  ∀ (s : State) (a : Nat) (v : Word), Memory.wf s.mem → s.memSize ≤ a + 3 →
    ∃ t, memWrite32 a v s = .error ⟨.outOfRange (max a s.memSize) s.pc, t⟩ ∧ t = { s with mem := t.mem } ∧
      (∀ k, k < 4 → a + k < s.memSize → Memory.read t.mem (a + k) = v.extractLsb' (8 * k) 8) ∧
      (∀ b, b < a ∨ s.memSize ≤ b → Memory.read t.mem b = Memory.read s.mem b)

/-- R51: a pop loads the word at ESP and then increments it; a pop that faults leaves ESP; a pop after a push gives the value
back and restores ESP. -/
def Obligations.PopUndoesPush : Prop :=
  ∀ (s : State) (v : Word),
    (s.regs.esp.toNat + 3 < s.memSize →
      pop32 s = .ok (Memory.readWord s.mem s.regs.esp.toNat, { s with regs := s.regs.set .esp (s.regs.esp + 4) })) ∧
    (s.memSize ≤ s.regs.esp.toNat + 3 → pop32 s = .error ⟨.outOfRange (max s.regs.esp.toNat s.memSize) s.pc, s⟩) ∧
    (Memory.wf s.mem → (s.regs.esp - 4).toNat + 3 < s.memSize →
      ∃ t u, push32 v s = .ok t ∧ t.regs.esp = s.regs.esp - 4 ∧ pop32 t = .ok (v, u) ∧ u.regs = s.regs)

/-! ## Encoding and decoding -/

/-- Decoding the encoding of a well-formed instruction gives it back with every operand, whatever bytes follow. -/
def Obligations.DecodeOfEncodeIsTheInstruction : Prop :=
  ∀ (i : Instr) (rest : List Byte), i.wf = true → decode (encode i ++ rest) = .ok (i, rest)

/-- What the decoder accepts is well formed and its bytes are exactly that instruction's encoding: each byte sequence has one
meaning and no operand bit is dropped. -/
def Obligations.EncodeOfDecodeIsTheBytes : Prop :=
  ∀ (bytes : List Byte) (i : Instr) (rest : List Byte), decode bytes = .ok (i, rest) →
    i.wf = true ∧ bytes = encode i ++ rest

/-- R84: the bytes of a well-formed instruction are as many as the length table says, between 1 and 11. -/
def Obligations.EncodingLengthIsTheTables : Prop :=
  ∀ i : Instr, i.wf = true → (encode i).length = i.length ∧ 1 ≤ i.length ∧ i.length ≤ 11

/-- R84 (with the numbers of R68): `Length(opcode, modrm)` row by row for all bytes, no length exactly for the absent opcodes,
1 to 11 otherwise, and exactly what the decoder takes from bytes it accepts.  0x83 and 0xFF have their length for EVERY reg
field, the ones that fault as an unsupported extension included. -/
def Obligations.OpcodeAndModRMTellTheLength : Prop :=
  ∀ (opcode modrm : Byte),
    (encodingLength opcode modrm = none ↔ absentOpcode opcode.toNat) ∧
    ((0x50 ≤ opcode.toNat ∧ opcode.toNat ≤ 0x5F) ∨ opcode = 0xC3 ∨ opcode = 0xC9 →
      encodingLength opcode modrm = some 1) ∧
    (opcode = 0x6A ∨ opcode = 0xEB → encodingLength opcode modrm = some 2) ∧
    (opcode = 0x68 ∨ (0xB8 ≤ opcode.toNat ∧ opcode.toNat ≤ 0xBF) ∨ opcode = 0xE8 ∨ opcode = 0xE9 →
      encodingLength opcode modrm = some 5) ∧
    (opcode = 0x01 ∨ opcode = 0x89 ∨ opcode = 0x8B ∨ opcode = 0xFF →
      encodingLength opcode modrm = some (1 + regionLength modrm)) ∧
    (opcode = 0x83 → encodingLength opcode modrm = some (2 + regionLength modrm)) ∧
    (opcode = 0xC7 → encodingLength opcode modrm = some (5 + regionLength modrm)) ∧
    (∀ n, encodingLength opcode modrm = some n → 1 ≤ n ∧ n ≤ 11) ∧
    (∀ (bytes : List Byte) (i : Instr) (rest : List Byte), bytes.head? = none ∨ bytes.head? = some modrm →
      decode (opcode :: bytes) = .ok (i, rest) →
        encodingLength opcode modrm = some i.length ∧ bytes.length + 1 = i.length + rest.length)

/-- R64: the ModRM byte's fields stand where the rule puts them, the byte is the one its fields make, and each of the 256
values decodes when the bytes that may belong to its region follow. -/
def Obligations.ModRMByteFieldsAreExtracted : Prop :=
  ∀ (b : Byte) (bytes : List Byte),
    (∀ d rest, decodeModRM (b :: bytes) = .ok (d, rest) →
      d.mode.bits = b.extractLsb' 6 2 ∧ d.reg = b.extractLsb' 3 3 ∧ d.rm = b.extractLsb' 0 3 ∧
      b = (d.mode.bits.setWidth 8 <<< 6) ||| (d.reg.setWidth 8 <<< 3) ||| d.rm.setWidth 8) ∧
    (5 ≤ bytes.length → ∃ d rest, decodeModRM (b :: bytes) = .ok (d, rest) ∧ d.wf = true)

/-- R66: the displacement of each form, after the ModRM byte and the SIB byte if there is one: four little-endian bytes, one
byte, or none. -/
def Obligations.DisplacementIsReadByModeAndRm : Prop :=
  ∀ (mode : Mode) (reg rm : BitVec 3) (sib : List Byte) (b0 b1 b2 b3 : Byte) (rest : List Byte),
    (if mode ≠ .m11 ∧ rm = 4 then sib.length = 1 else sib = []) →
    ((mode = .m00 ∧ rm = 5) ∨ mode = .m10 →
      decodeModRM (modRMByte mode reg rm :: (sib ++ b0 :: b1 :: b2 :: b3 :: rest)) =
        .ok (⟨mode, reg, rm, sib.head?, .disp32 (b0.setWidth 32 ||| b1.setWidth 32 <<< 8 ||| b2.setWidth 32 <<< 16 |||
          b3.setWidth 32 <<< 24)⟩, rest)) ∧
    (mode = .m01 → decodeModRM (modRMByte mode reg rm :: (sib ++ b0 :: rest)) =
      .ok (⟨mode, reg, rm, sib.head?, .disp8 b0⟩, rest)) ∧
    ((mode = .m00 ∧ rm ≠ 5) ∨ mode = .m11 → decodeModRM (modRMByte mode reg rm :: (sib ++ rest)) =
      .ok (⟨mode, reg, rm, sib.head?, .none⟩, rest))

/-- R69 (with the lengths of R68): the descriptor is a function of the bytes of its region alone, and the region is as long as
the table says. -/
def Obligations.DescriptorDependsOnItsRegionAlone : Prop :=
  ∀ (bytes : List Byte) (d : Descriptor) (rest : List Byte), decodeModRM bytes = .ok (d, rest) →
    ∃ region, bytes = region ++ rest ∧ region.length = modRMLength d.mode d.rm ∧
      ∀ other, decodeModRM (region ++ other) = .ok (d, other)

/-- R79, R82: the 16 handlers stand in their slots, and a slot is absent exactly for the opcodes R82 lists. -/
def Obligations.DispatchTableIsTheSpecs : Prop :=
  (∀ opcode : Byte, dispatch opcode = none ↔ absentOpcode opcode.toNat) ∧
  (∀ r : BitVec 3, dispatch (0x50 ||| r.setWidth 8) = some .pushR32 ∧ dispatch (0x58 ||| r.setWidth 8) = some .popR32 ∧
    dispatch (0xB8 ||| r.setWidth 8) = some .movR32Imm32) ∧
  dispatch 0x01 = some .addRm32R32 ∧ dispatch 0x68 = some .pushImm32 ∧ dispatch 0x6A = some .pushImm8 ∧
  dispatch 0x83 = some .group83 ∧ dispatch 0x89 = some .movRm32R32 ∧ dispatch 0x8B = some .movR32Rm32 ∧
  dispatch 0xC3 = some .ret ∧ dispatch 0xC7 = some .movRm32Imm32 ∧ dispatch 0xC9 = some .leave ∧
  dispatch 0xE8 = some .callRel32 ∧ dispatch 0xE9 = some .nearJump ∧ dispatch 0xEB = some .shortJump ∧
  dispatch 0xFF = some .groupFF

/-- Words written out from the spec's encodings and worked examples (95_test_vectors.md), one of each family and more. -/
def Obligations.SpecWordsDecode : Prop :=
  decode [0xB8, 0x05, 0x00, 0x00, 0x00] = .ok (.movR32Imm32 .eax 5, []) ∧
  decode [0xC7, 0x45, 0xFC, 0x2A, 0x00, 0x00, 0x00] =
    .ok (.movRm32Imm32 ⟨.m01, 0, 5, none, .disp8 0xFC⟩ 0x2A, []) ∧
  decode [0x8B, 0x0D, 0x00, 0x20, 0x00, 0x00] = .ok (.movR32Rm32 ⟨.m00, 1, 5, none, .disp32 0x2000⟩, []) ∧
  decode [0x89, 0x8D, 0xF8, 0xFF, 0xFF, 0xFF] = .ok (.movRm32R32 ⟨.m10, 1, 5, none, .disp32 0xFFFFFFF8⟩, []) ∧
  decode [0x01, 0xC1] = .ok (.addRm32R32 ⟨.m11, 0, 1, none, .none⟩, []) ∧
  decode [0x83, 0xC0, 0x03] = .ok (.addRm32Imm8 ⟨.m11, 0, 0, none, .none⟩ 3, []) ∧
  decode [0x83, 0xE8, 0x07] = .ok (.subRm32Imm8 ⟨.m11, 5, 0, none, .none⟩ 7, []) ∧
  decode [0xFF, 0x45, 0xFC] = .ok (.incRm32 ⟨.m01, 0, 5, none, .disp8 0xFC⟩, []) ∧
  decode [0x55] = .ok (.pushR32 .ebp, []) ∧ decode [0x5C] = .ok (.popR32 .esp, []) ∧
  decode [0x6A, 0x07] = .ok (.pushImm8 7, []) ∧ decode [0x68, 0x00, 0x01, 0x00, 0x00] = .ok (.pushImm32 0x100, []) ∧
  decode [0xE8, 0x05, 0x00, 0x00, 0x00] = .ok (.callRel32 5, []) ∧
  decode [0xE9, 0xEA, 0xFE, 0xFF, 0xFF] = .ok (.jmpRel32 0xFFFFFEEA, []) ∧ decode [0xEB, 0xFE] = .ok (.jmpRel8 0xFE, [])

/-! ## One step -/

/-- R180: when the bytes at pc encode a well-formed instruction, a step is that instruction's execution followed by
Check-Terminal: a result that is still Running at pc 0 becomes Halted.  A Running state whose pc is already 0 runs the
instruction there like any other: that the sentinel is tested only AFTER an instruction is the spec's own choice D13 (R182
takes it up; log entry 16, unsafe), not the source's words. -/
def Obligations.StepRunsTheDecodedInstruction : Prop :=
  ∀ (s : State) (i : Instr), i.wf = true → s.Holds i →
    step s = match exec i s with
      | .next t => .next (if t.status = .running ∧ t.pc = 0 then { t with status := .halted } else t)
      | .fault f => .fault f
      | .refused r => .refused r

/-- R183 with D14: a step with pc at or above the capacity raises OutOfRange(pc) and changes nothing else. -/
def Obligations.StepAtOrAboveCapacityFaults : Prop :=
  ∀ s : State, s.status = .running → s.memSize ≤ s.pc.toNat →
    step s = .next { s with status := .faulted (.outOfRange s.pc.toNat s.pc) }

/-- An instruction with bytes at or above the capacity raises OutOfRange at the first such byte, with nothing written (R42,
R48).  Four clauses of it are the spec's own choices (log entry 16): the byte's address does not wrap past 0xFFFFFFFF (D7,
R45); the bytes of a word are read at ascending addresses, so the first missing one is reported (D8, R43); the fetch faults
before any data access could (D10, R192); and with pc itself at the capacity it is the next fetch that faults (D14, R183). -/
def Obligations.InstructionCutShortFaults : Prop :=
  ∀ (s : State) (i : Instr), i.wf = true → s.CutShort i →
    step s = .next { s with status := .faulted (.outOfRange s.memSize s.pc) }

/-- R82, R187: an opcode of the list of R82 stops the machine with UnsupportedOpcode and leaves the whole state unchanged apart
from the status. -/
def Obligations.AbsentOpcodeStopsWithStateUnchanged : Prop :=
  ∀ s : State, s.status = .running → s.pc.toNat < s.memSize →
    absentOpcode (Memory.read s.mem s.pc.toNat).toNat →
    step s = .next { s with status := .faulted (.unsupportedOpcode (Memory.read s.mem s.pc.toNat) s.pc) }

/-- R80, R188, R192: a group opcode whose reg field selects no operation stops the machine as soon as its ModRM region is in
range, whether or not an immediate byte or the addressing form would fault too, and nothing else changes. -/
def Obligations.UnsupportedExtensionStopsWithStateUnchanged : Prop :=
  ∀ (s : State) (d : Descriptor), s.status = .running → d.wf = true →
    s.pc.toNat + 1 + (encodeModRM d).length ≤ s.memSize →
    (∀ k (h : k < (encodeModRM d).length), Memory.read s.mem (s.pc.toNat + 1 + k) = (encodeModRM d)[k]) →
    (Memory.read s.mem s.pc.toNat = 0x83 → d.reg ≠ 0 → d.reg ≠ 5 →
      step s = .next { s with status := .faulted (.unsupportedOpcodeExtension 0x83 d.reg s.pc) }) ∧
    (Memory.read s.mem s.pc.toNat = 0xFF → d.reg ≠ 0 →
      step s = .next { s with status := .faulted (.unsupportedOpcodeExtension 0xFF d.reg s.pc) })

/-! ## Operand forms -/

/-- R71: the effective address of every form. -/
def Obligations.EffectiveAddressByMode : Prop :=
  ∀ (d : Descriptor) (s : State),
    (d.mode ≠ .m11 → d.rm = 4 →
      effectiveAddress d s = .error ⟨.unsupportedAddressingForm d.mode 4 s.pc, s⟩) ∧
    (∀ v, d.mode = .m00 → d.rm = 5 → d.disp = .disp32 v → effectiveAddress d s = .ok v) ∧
    (d.mode = .m00 → d.rm ≠ 4 → d.rm ≠ 5 → effectiveAddress d s = .ok (s.getReg (Reg.ofBits d.rm))) ∧
    (∀ v, d.mode = .m01 → d.rm ≠ 4 → d.disp = .disp8 v →
      effectiveAddress d s = .ok (s.getReg (Reg.ofBits d.rm) + v.signExtend 32)) ∧
    (∀ v, d.mode = .m10 → d.rm ≠ 4 → d.disp = .disp32 v →
      effectiveAddress d s = .ok (s.getReg (Reg.ofBits d.rm) + v)) ∧
    (d.mode = .m11 → effectiveAddress d s = .error ⟨.unsupportedAddressingForm .m11 d.rm s.pc, s⟩)

/-- R75, R76: the r/m operand is the register in mode 11 and the word at the effective address otherwise. -/
def Obligations.RmOperandByMode : Prop :=
  ∀ (d : Descriptor) (s : State) (v : Word),
    (d.mode = .m11 → getRm32 d s = .ok (s.getReg (Reg.ofBits d.rm)) ∧
      setRm32 d v s = .ok (s.setReg (Reg.ofBits d.rm) v)) ∧
    (d.mode ≠ .m11 → ∀ a, effectiveAddress d s = .ok a →
      getRm32 d s = memRead32 a.toNat s ∧ setRm32 d v s = memWrite32 a.toNat v s) ∧
    (d.mode ≠ .m11 → ∀ e, effectiveAddress d s = .error e → getRm32 d s = .error e ∧ setRm32 d v s = .error e)

/-- R72: in modes 00, 01 and 10 with rm = 100b every instruction that has an r/m operand stops with
UnsupportedAddressingForm, and nothing else changes. -/
def Obligations.SibEscapeStopsEveryRmInstruction : Prop :=
  ∀ (i : Instr) (d : Descriptor) (s : State), i.descriptor = some d → d.mode ≠ .m11 → d.rm = 4 →
    exec i s = .next { s with status := .faulted (.unsupportedAddressingForm d.mode 4 s.pc) }

/-- R73: no instruction ever asks for the effective address of mode 11. -/
def Obligations.NoInstructionAddressesModeEleven : Prop :=
  ∀ (i : Instr) (s t : State), s.status = .running → exec i s = .next t →
    ∀ rm pc, t.status ≠ .faulted (.unsupportedAddressingForm .m11 rm pc)

/-! ## Data movement -/

/-- R100: MOV r32, imm32. -/
def Obligations.MovRegisterImmediate : Prop :=
  ∀ (r : Reg) (imm : Word) (s : State),
    encode (.movR32Imm32 r imm) = (0xB8 ||| r.bits.setWidth 8) :: wordBytes imm ∧
    exec (.movR32Imm32 r imm) s = .next { s with regs := s.regs.set r imm, pc := s.pc + 5 } ∧
    (s.CutShort (.movR32Imm32 r imm) → step s = .next { s with status := .faulted (.outOfRange s.memSize s.pc) })

/-- R101: MOV r/m32, imm32, for every reg value (D15); faulted stores as D9 has them. -/
def Obligations.MovRmImmediate : Prop :=
  ∀ (d : Descriptor) (imm : Word) (s : State),
    encode (.movRm32Imm32 d imm) = 0xC7 :: (encodeModRM d ++ wordBytes imm) ∧
    (d.mode = .m11 → exec (.movRm32Imm32 d imm) s =
      .next { s with regs := s.regs.set (Reg.ofBits d.rm) imm, pc := s.pc + 6 }) ∧
    (∀ a, effectiveAddress d s = .ok a → a.toNat + 3 < s.memSize → exec (.movRm32Imm32 d imm) s =
      .next { s with mem := Memory.writeWord s.mem a.toNat imm
                     pc := s.pc + BitVec.ofNat 32 (5 + modRMLength d.mode d.rm) }) ∧
    (∀ a, effectiveAddress d s = .ok a → s.memSize ≤ a.toNat + 3 → exec (.movRm32Imm32 d imm) s =
      .next (State.stopOutOfRange { s with mem := Memory.writeBelow s.memSize s.mem a.toNat (wordBytes imm) } a.toNat))

/-- R102: MOV r/m32, r32; faulted stores as D9 has them. -/
def Obligations.MovRmRegister : Prop :=
  ∀ (d : Descriptor) (s : State),
    encode (.movRm32R32 d) = 0x89 :: encodeModRM d ∧
    (d.mode = .m11 → exec (.movRm32R32 d) s =
      .next { s with regs := s.regs.set (Reg.ofBits d.rm) (s.getReg (Reg.ofBits d.reg)), pc := s.pc + 2 }) ∧
    (∀ a, effectiveAddress d s = .ok a → a.toNat + 3 < s.memSize → exec (.movRm32R32 d) s =
      .next { s with mem := Memory.writeWord s.mem a.toNat (s.getReg (Reg.ofBits d.reg))
                     pc := s.pc + BitVec.ofNat 32 (1 + modRMLength d.mode d.rm) }) ∧
    (∀ a, effectiveAddress d s = .ok a → s.memSize ≤ a.toNat + 3 → exec (.movRm32R32 d) s =
      .next (State.stopOutOfRange { s with
        mem := Memory.writeBelow s.memSize s.mem a.toNat (wordBytes (s.getReg (Reg.ofBits d.reg))) } a.toNat))

/-- R103: MOV r32, r/m32, with every fault it can raise and nothing written by any of them. -/
def Obligations.MovRegisterRm : Prop :=
  ∀ (d : Descriptor) (s : State),
    encode (.movR32Rm32 d) = 0x8B :: encodeModRM d ∧
    (d.mode = .m11 → exec (.movR32Rm32 d) s =
      .next { s with regs := s.regs.set (Reg.ofBits d.reg) (s.getReg (Reg.ofBits d.rm)), pc := s.pc + 2 }) ∧
    (∀ a, effectiveAddress d s = .ok a → a.toNat + 3 < s.memSize → exec (.movR32Rm32 d) s =
      .next { s with regs := s.regs.set (Reg.ofBits d.reg) (Memory.readWord s.mem a.toNat)
                     pc := s.pc + BitVec.ofNat 32 (1 + modRMLength d.mode d.rm) }) ∧
    (∀ a, effectiveAddress d s = .ok a → s.memSize ≤ a.toNat + 3 → exec (.movR32Rm32 d) s =
      .next (s.stopOutOfRange a.toNat)) ∧
    (d.mode ≠ .m11 → d.rm = 4 → exec (.movR32Rm32 d) s =
      .next { s with status := .faulted (.unsupportedAddressingForm d.mode 4 s.pc) }) ∧
    (d.wf = true → s.CutShort (.movR32Rm32 d) →
      step s = .next { s with status := .faulted (.outOfRange s.memSize s.pc) })

/-! ## Arithmetic -/

/-- R120: ADD r/m32, r32. -/
def Obligations.AddRmRegister : Prop :=
  ∀ (d : Descriptor) (s : State),
    encode (.addRm32R32 d) = 0x01 :: encodeModRM d ∧
    (d.mode = .m11 → exec (.addRm32R32 d) s =
      .next { s with regs := s.regs.set (Reg.ofBits d.rm) (s.getReg (Reg.ofBits d.rm) + s.getReg (Reg.ofBits d.reg))
                     pc := s.pc + 2 }) ∧
    (∀ a, effectiveAddress d s = .ok a → a.toNat + 3 < s.memSize → exec (.addRm32R32 d) s =
      .next { s with mem := Memory.writeWord s.mem a.toNat (Memory.readWord s.mem a.toNat + s.getReg (Reg.ofBits d.reg))
                     pc := s.pc + BitVec.ofNat 32 (1 + modRMLength d.mode d.rm) }) ∧
    (∀ a, effectiveAddress d s = .ok a → s.memSize ≤ a.toNat + 3 → exec (.addRm32R32 d) s =
      .next (s.stopOutOfRange a.toNat))

/-- R121: ADD r/m32, imm8, the immediate sign-extended. -/
def Obligations.AddRmImmediate : Prop :=
  ∀ (d : Descriptor) (imm : Byte) (s : State),
    encode (.addRm32Imm8 d imm) = 0x83 :: (encodeModRM d ++ [imm]) ∧
    (d.mode = .m11 → exec (.addRm32Imm8 d imm) s =
      .next { s with regs := s.regs.set (Reg.ofBits d.rm) (s.getReg (Reg.ofBits d.rm) + imm.signExtend 32)
                     pc := s.pc + 3 }) ∧
    (∀ a, effectiveAddress d s = .ok a → a.toNat + 3 < s.memSize → exec (.addRm32Imm8 d imm) s =
      .next { s with mem := Memory.writeWord s.mem a.toNat (Memory.readWord s.mem a.toNat + imm.signExtend 32)
                     pc := s.pc + BitVec.ofNat 32 (2 + modRMLength d.mode d.rm) }) ∧
    (∀ a, effectiveAddress d s = .ok a → s.memSize ≤ a.toNat + 3 → exec (.addRm32Imm8 d imm) s =
      .next (s.stopOutOfRange a.toNat))

/-- R122: SUB r/m32, imm8, the immediate sign-extended. -/
def Obligations.SubRmImmediate : Prop :=
  ∀ (d : Descriptor) (imm : Byte) (s : State),
    encode (.subRm32Imm8 d imm) = 0x83 :: (encodeModRM d ++ [imm]) ∧
    (d.mode = .m11 → exec (.subRm32Imm8 d imm) s =
      .next { s with regs := s.regs.set (Reg.ofBits d.rm) (s.getReg (Reg.ofBits d.rm) - imm.signExtend 32)
                     pc := s.pc + 3 }) ∧
    (∀ a, effectiveAddress d s = .ok a → a.toNat + 3 < s.memSize → exec (.subRm32Imm8 d imm) s =
      .next { s with mem := Memory.writeWord s.mem a.toNat (Memory.readWord s.mem a.toNat - imm.signExtend 32)
                     pc := s.pc + BitVec.ofNat 32 (2 + modRMLength d.mode d.rm) }) ∧
    (∀ a, effectiveAddress d s = .ok a → s.memSize ≤ a.toNat + 3 → exec (.subRm32Imm8 d imm) s =
      .next (s.stopOutOfRange a.toNat))

/-- R123: INC r/m32, with every fault it can raise and nothing written by any of them. -/
def Obligations.IncRm : Prop :=
  ∀ (d : Descriptor) (s : State),
    encode (.incRm32 d) = 0xFF :: encodeModRM d ∧
    (d.mode = .m11 → exec (.incRm32 d) s =
      .next { s with regs := s.regs.set (Reg.ofBits d.rm) (s.getReg (Reg.ofBits d.rm) + 1), pc := s.pc + 2 }) ∧
    (∀ a, effectiveAddress d s = .ok a → a.toNat + 3 < s.memSize → exec (.incRm32 d) s =
      .next { s with mem := Memory.writeWord s.mem a.toNat (Memory.readWord s.mem a.toNat + 1)
                     pc := s.pc + BitVec.ofNat 32 (1 + modRMLength d.mode d.rm) }) ∧
    (∀ a, effectiveAddress d s = .ok a → s.memSize ≤ a.toNat + 3 → exec (.incRm32 d) s =
      .next (s.stopOutOfRange a.toNat)) ∧
    (d.mode ≠ .m11 → d.rm = 4 → exec (.incRm32 d) s =
      .next { s with status := .faulted (.unsupportedAddressingForm d.mode 4 s.pc) }) ∧
    (d.wf = true → d.reg = 0 → s.CutShort (.incRm32 d) →
      step s = .next { s with status := .faulted (.outOfRange s.memSize s.pc) })

/-! ## The stack -/

/-- R140: PUSH r32; the value is the register's before the decrement, PUSH ESP included.  The faulted state is D9's. -/
def Obligations.PushRegister : Prop :=
  ∀ (r : Reg) (s : State),
    encode (.pushR32 r) = [0x50 ||| r.bits.setWidth 8] ∧
    ((s.getReg .esp - 4).toNat + 3 < s.memSize → exec (.pushR32 r) s =
      .next { s with regs := s.regs.set .esp (s.getReg .esp - 4)
                     mem := Memory.writeWord s.mem (s.getReg .esp - 4).toNat (s.getReg r), pc := s.pc + 1 }) ∧
    (s.memSize ≤ (s.getReg .esp - 4).toNat + 3 → exec (.pushR32 r) s =
      .next (State.stopOutOfRange { s with
        regs := s.regs.set .esp (s.getReg .esp - 4)
        mem := Memory.writeBelow s.memSize s.mem (s.getReg .esp - 4).toNat (wordBytes (s.getReg r)) }
          (s.getReg .esp - 4).toNat))

/-- R141: PUSH imm32.  The faulted state is D9's. -/
def Obligations.PushImmediateWord : Prop :=
  ∀ (imm : Word) (s : State),
    encode (.pushImm32 imm) = 0x68 :: wordBytes imm ∧
    ((s.getReg .esp - 4).toNat + 3 < s.memSize → exec (.pushImm32 imm) s =
      .next { s with regs := s.regs.set .esp (s.getReg .esp - 4)
                     mem := Memory.writeWord s.mem (s.getReg .esp - 4).toNat imm, pc := s.pc + 5 }) ∧
    (s.memSize ≤ (s.getReg .esp - 4).toNat + 3 → exec (.pushImm32 imm) s =
      .next (State.stopOutOfRange { s with
        regs := s.regs.set .esp (s.getReg .esp - 4)
        mem := Memory.writeBelow s.memSize s.mem (s.getReg .esp - 4).toNat (wordBytes imm) }
          (s.getReg .esp - 4).toNat))

/-- R142: PUSH imm8, the immediate zero-extended.  The faulted state is D9's. -/
def Obligations.PushImmediateByteZeroExtends : Prop :=
  ∀ (imm : Byte) (s : State),
    encode (.pushImm8 imm) = [0x6A, imm] ∧
    ((s.getReg .esp - 4).toNat + 3 < s.memSize → exec (.pushImm8 imm) s =
      .next { s with regs := s.regs.set .esp (s.getReg .esp - 4)
                     mem := Memory.writeWord s.mem (s.getReg .esp - 4).toNat (imm.setWidth 32), pc := s.pc + 2 }) ∧
    (s.memSize ≤ (s.getReg .esp - 4).toNat + 3 → exec (.pushImm8 imm) s =
      .next (State.stopOutOfRange { s with
        regs := s.regs.set .esp (s.getReg .esp - 4)
        mem := Memory.writeBelow s.memSize s.mem (s.getReg .esp - 4).toNat (wordBytes (imm.setWidth 32)) }
          (s.getReg .esp - 4).toNat))

/-- R143: POP r32; for POP ESP the popped value replaces the incremented ESP. -/
def Obligations.PopRegister : Prop :=
  ∀ (r : Reg) (s : State),
    encode (.popR32 r) = [0x58 ||| r.bits.setWidth 8] ∧
    ((s.getReg .esp).toNat + 3 < s.memSize → exec (.popR32 r) s =
      .next { s with
        regs := (s.regs.set .esp (s.getReg .esp + 4)).set r (Memory.readWord s.mem (s.getReg .esp).toNat)
        pc := s.pc + 1 }) ∧
    (s.memSize ≤ (s.getReg .esp).toNat + 3 → exec (.popR32 r) s = .next (s.stopOutOfRange (s.getReg .esp).toNat))

/-- R144: LEAVE.  That ESP has become EBP in the faulted state is D9's. -/
def Obligations.LeaveRestoresTheFrame : Prop :=
  ∀ s : State,
    encode .leave = [0xC9] ∧
    ((s.getReg .ebp).toNat + 3 < s.memSize → exec .leave s =
      .next { s with
        regs := (s.regs.set .esp (s.getReg .ebp + 4)).set .ebp (Memory.readWord s.mem (s.getReg .ebp).toNat)
        pc := s.pc + 1 }) ∧
    (s.memSize ≤ (s.getReg .ebp).toNat + 3 → exec .leave s =
      .next (State.stopOutOfRange { s with regs := s.regs.set .esp (s.getReg .ebp) } (s.getReg .ebp).toNat))

/-! ## Control transfer -/

/-- R160: CALL rel32.  The faulted state is D9's. -/
def Obligations.CallPushesTheReturnAddress : Prop :=
  ∀ (rel : Word) (s : State),
    encode (.callRel32 rel) = 0xE8 :: wordBytes rel ∧
    ((s.getReg .esp - 4).toNat + 3 < s.memSize → exec (.callRel32 rel) s =
      .next { s with regs := s.regs.set .esp (s.getReg .esp - 4)
                     mem := Memory.writeWord s.mem (s.getReg .esp - 4).toNat (s.pc + 5), pc := s.pc + 5 + rel }) ∧
    (s.memSize ≤ (s.getReg .esp - 4).toNat + 3 → exec (.callRel32 rel) s =
      .next (State.stopOutOfRange { s with
        regs := s.regs.set .esp (s.getReg .esp - 4)
        mem := Memory.writeBelow s.memSize s.mem (s.getReg .esp - 4).toNat (wordBytes (s.pc + 5)) }
          (s.getReg .esp - 4).toNat))

/-- R161: RET, and what a popped 0 does at the end of the step. -/
def Obligations.RetPopsThePc : Prop :=
  ∀ s : State,
    encode .ret = [0xC3] ∧
    ((s.getReg .esp).toNat + 3 < s.memSize → exec .ret s =
      .next { s with regs := s.regs.set .esp (s.getReg .esp + 4)
                     pc := Memory.readWord s.mem (s.getReg .esp).toNat }) ∧
    (s.memSize ≤ (s.getReg .esp).toNat + 3 → exec .ret s = .next (s.stopOutOfRange (s.getReg .esp).toNat)) ∧
    (s.Holds .ret → (s.getReg .esp).toNat + 3 < s.memSize → Memory.readWord s.mem (s.getReg .esp).toNat = 0 →
      step s = .next { s with regs := s.regs.set .esp (s.getReg .esp + 4), pc := 0, status := .halted })

/-- R162: JMP rel8, the offset sign-extended, from the address of the next instruction. -/
def Obligations.ShortJump : Prop :=
  ∀ (rel : Byte) (s : State),
    encode (.jmpRel8 rel) = [0xEB, rel] ∧
    exec (.jmpRel8 rel) s = .next { s with pc := s.pc + 2 + rel.signExtend 32 } ∧
    (s.CutShort (.jmpRel8 rel) → step s = .next { s with status := .faulted (.outOfRange s.memSize s.pc) })

/-- R163: JMP rel32, from the address of the next instruction, and the halt of a jump to 0. -/
def Obligations.NearJump : Prop :=
  ∀ (rel : Word) (s : State),
    encode (.jmpRel32 rel) = 0xE9 :: wordBytes rel ∧
    exec (.jmpRel32 rel) s = .next { s with pc := s.pc + 5 + rel } ∧
    (s.CutShort (.jmpRel32 rel) → step s = .next { s with status := .faulted (.outOfRange s.memSize s.pc) }) ∧
    (s.Holds (.jmpRel32 rel) → rel = 0 - (s.pc + 5) → step s = .next { s with pc := 0, status := .halted })

/-- R160, R161 (scenario S8 as corrected by C2): a CALL and then a RET at its target continue after the CALL with every register
as before. -/
def Obligations.RetReturnsAfterTheCall : Prop :=
  ∀ (rel : Word) (s : State), Memory.wf s.mem → (s.getReg .esp - 4).toNat + 3 < s.memSize →
    ∃ t u, exec (.callRel32 rel) s = .next t ∧ t.pc = s.pc + 5 + rel ∧ exec .ret t = .next u ∧ u.pc = s.pc + 5 ∧
      u.regs = s.regs

/-! ## Frames -/

/-- The frame of an instruction whose destination is a register: only that register changes, and no byte of memory. -/
def Obligations.RegisterDestinationFrame : Prop :=
  ∀ (i : Instr) (dest : Reg) (s t : State), registerDestination i = some dest → exec i s = .next t →
    (∀ r, r ≠ dest → t.getReg r = s.getReg r) ∧ restUnchanged s t ∧
    ∀ a, Memory.read t.mem a = Memory.read s.mem a

/-- The frame of an instruction whose destination is in memory: no register changes, and no byte outside the four at the
effective address; none at all where there is no effective address. -/
def Obligations.MemoryDestinationFrame : Prop :=
  ∀ (i : Instr) (d : Descriptor) (s t : State), memoryDestination i = some d → d.mode ≠ .m11 → exec i s = .next t →
    (∀ r, t.getReg r = s.getReg r) ∧ restUnchanged s t ∧
    (∀ a, effectiveAddress d s = .ok a →
      ∀ b, b < a.toNat ∨ a.toNat + 4 ≤ b → Memory.read t.mem b = Memory.read s.mem b) ∧
    ((∀ a, effectiveAddress d s ≠ .ok a) → ∀ b, Memory.read t.mem b = Memory.read s.mem b)

/-- The frame of the three PUSH forms and CALL: ESP is the only register that changes, and the four bytes at the new ESP the only
ones of memory. -/
def Obligations.PushFrame : Prop :=
  ∀ (i : Instr) (s t : State), pushes i → exec i s = .next t →
    (∀ r, r ≠ .esp → t.getReg r = s.getReg r) ∧ restUnchanged s t ∧
    ∀ b, b < (s.getReg .esp - 4).toNat ∨ (s.getReg .esp - 4).toNat + 4 ≤ b →
      Memory.read t.mem b = Memory.read s.mem b

/-- The frame of POP, LEAVE and RET: only ESP and the popped register (POP its operand, LEAVE EBP) change, and no byte of
memory. -/
def Obligations.PopFrame : Prop :=
  ∀ (i : Instr) (changed : List Reg) (s t : State), popChanges i = some changed → exec i s = .next t →
    (∀ r, r ∉ changed → t.getReg r = s.getReg r) ∧ restUnchanged s t ∧
    ∀ a, Memory.read t.mem a = Memory.read s.mem a

/-- The frame of the two jumps: nothing but pc changes. -/
def Obligations.JumpFrame : Prop :=
  ∀ (i : Instr) (s t : State), ((∃ rel, i = .jmpRel8 rel) ∨ ∃ rel, i = .jmpRel32 rel) → exec i s = .next t →
    (∀ r, t.getReg r = s.getReg r) ∧ restUnchanged s t ∧ ∀ a, Memory.read t.mem a = Memory.read s.mem a

/-! ## The whole machine -/

/-- R184: Halted and Faulted are final: a step changes nothing.  That it answers the same state, not a stop of the model's
own, is log entry 6. -/
def Obligations.FinalStatesNeverChange : Prop :=
  ∀ s : State, s.status ≠ .running → step s = .next s ∧ ∀ k, Sys2Proof.core.run k s = .next s

/-- Every step answers a next state.  From a Running state: a fault sets the status and transfers control nowhere (R12, R193),
and the model answers that faulted state as a NEXT state, never as a stop of its own (log entry 7, resting on the spec's own
choice D12).  From a Halted or Faulted state the spec enables no step (R184), and the host's `step()` does nothing (R198): that
the model answers the same state as a next state is its own choice (log entry 6). -/
def Obligations.StepAlwaysAnswersANextState : Prop :=
  ∀ s : State, ∃ t, step s = .next t

/-- R30, R40: no step writes the flags word or changes the capacity. -/
def Obligations.FlagsAndCapacityNeverChange : Prop :=
  ∀ s t : State, step s = .next t → t.flags = s.flags ∧ t.memSize = s.memSize

/-- R30: no step reads the flags word: with another value in it the step does the same and keeps that value. -/
def Obligations.FlagsAreNeverConsumed : Prop :=
  ∀ (s t : State) (w : Word), step s = .next t → step { s with flags := w } = .next { t with flags := w }

/-- R182: a step halts the machine exactly when it completes without a fault at pc 0. -/
def Obligations.HaltsExactlyAtTheSentinel : Prop :=
  ∀ s t : State, s.status = .running → step s = .next t →
    (t.status = .halted ↔ t.pc = 0 ∧ ∀ f, t.status ≠ .faulted f) ∧ (t.status = .running → t.pc ≠ 0)

/-- R187, R188: a fault that is not OutOfRange leaves the whole state unchanged apart from the status. -/
def Obligations.OtherFaultsLeaveTheStateUnchanged : Prop :=
  ∀ (s t : State) (f : Fault), s.status = .running → step s = .next t → t.status = .faulted f →
    (∀ a p, f ≠ .outOfRange a p) → t = { s with status := .faulted f }

/-- R189 with D9: an OutOfRange fault of an instruction leaves pc and every register but ESP; ESP is decremented by a push and
EBP after LEAVE; memory changes only in a store, and there only in the stored bytes below the capacity. -/
def Obligations.OutOfRangeLeavesOnlyTheNamedEffects : Prop :=
  ∀ (i : Instr) (s t : State) (address : Nat) (p : Word), s.status = .running → exec i s = .next t →
    t.status = .faulted (.outOfRange address p) →
    t.pc = s.pc ∧ p = s.pc ∧ s.memSize ≤ address ∧ t.flags = s.flags ∧
    (∀ r, r ≠ .esp → t.getReg r = s.getReg r) ∧ t.getReg .esp = faultedEsp i s ∧
    (∀ b, s.memSize ≤ b → Memory.read t.mem b = Memory.read s.mem b) ∧
    ((∀ d imm, i ≠ .movRm32Imm32 d imm) → (∀ d, i ≠ .movRm32R32 d) → ¬ pushes i → t.mem = s.mem)

/-- Every step keeps the invariant: a capacity R7 allows, memory in canonical form with no address at or above the capacity, a
halted machine at pc 0, and a fault's information that fits the state. -/
def Obligations.StepKeepsTheInvariant : Prop :=
  ∀ s t : State, s.Inv → step s = .next t → t.Inv

/-- The state after reset meets the invariant.  Its capacity, entry point and stack seed are the model's choice (log entries 1
to 4). -/
def Obligations.ResetMeetsTheInvariant : Prop := State.reset.Inv

/-- R57, R227: a store into code is seen by the next fetch: MOV [pc + 10], imm32, ten bytes long, followed in memory by anything,
makes the next step run the one-byte instruction its immediate begins with. -/
def Obligations.StoredCodeIsFetchedNext : Prop :=
  ∀ (s : State) (imm : Word) (j : Instr), Memory.wf s.mem →
    s.Holds (.movRm32Imm32 ⟨.m00, 0, 5, none, .disp32 (s.pc + 10)⟩ imm) →
    j.wf = true → encode j = [imm.extractLsb' 0 8] → s.pc.toNat + 13 < s.memSize → s.memSize ≤ 2 ^ 32 →
    ∃ t, step s = .next t ∧ t.pc = s.pc + 10 ∧ t.status = .running ∧ t.regs = s.regs ∧
      step t = afterExecute (exec j t)

/-- R203: the two jumps to themselves run forever: after any number of steps the state is the same and Running. -/
def Obligations.JumpToSelfNeverEnds : Prop :=
  ∀ s : State, s.Holds (.jmpRel8 0xFE) ∨ s.Holds (.jmpRel32 0xFFFFFFFB) → s.pc ≠ 0 →
    ∀ k, Sys2Proof.core.run k s = .next s

/-! ## The host -/

/-- R220: the constructor, for all parameters; with the parameters Config names it is the state after reset (log entries 1 to
4). -/
def Obligations.ConstructorBuildsTheResetState : Prop :=
  (∀ (memSize : Nat) (eip0 esp0 : Word) (background : Memory), Memory.wf background →
    let s := State.construct memSize eip0 esp0 background
    (∀ r, r ≠ .esp → s.getReg r = 0) ∧ s.getReg .esp = esp0 ∧ s.pc = eip0 ∧ s.flags = 0 ∧ s.memSize = memSize ∧
    s.status = .running ∧ (∀ a, a < memSize → Memory.read s.mem a = Memory.read background a) ∧
    (1 ≤ memSize → memSize ≤ 2 ^ 32 → s.Inv)) ∧
  State.construct Config.memSize Config.eip0 Config.esp0 [] = State.reset

/-- R198, R200 with D20: `load` writes all its bytes and nothing else, or is refused as a whole when they do not fit; once a
step has been asked for it is refused and changes nothing. -/
def Obligations.LoadIsWholeOrRefused : Prop :=
  (∀ (offset : Nat) (bytes : List Byte) (s : State), Memory.wf s.mem → offset + bytes.length ≤ s.memSize →
    ∃ t, load offset bytes s = some t ∧ t = { s with mem := t.mem } ∧
      (∀ k (h : k < bytes.length), Memory.read t.mem (offset + k) = bytes[k]) ∧
      (∀ b, b < offset ∨ offset + bytes.length ≤ b → Memory.read t.mem b = Memory.read s.mem b)) ∧
  (∀ (offset : Nat) (bytes : List Byte) (s : State), s.memSize < offset + bytes.length → load offset bytes s = none) ∧
  (∀ (h : Session) (offset : Nat) (bytes : List Byte), h.begun = true →
    h.serve (.load offset bytes) = (.loadRefused, h)) ∧
  (∀ h : Session, (h.serve .step).2.begun = true)

/-- R199: the dump is the eight registers in index order and then EIP, each as eight hexadecimal digits of its value, and taking
it changes nothing. -/
def Obligations.DumpListsRegistersThenPc : Prop :=
  (∀ s : State, dump s = [s.regs.eax, s.regs.ecx, s.regs.edx, s.regs.ebx, s.regs.esp, s.regs.ebp, s.regs.esi, s.regs.edi,
    s.pc]) ∧
  (∀ v : Word, (hexDigits v).length = 8 ∧ (hexDigits v).foldl (fun n d => 16 * n + d.toNat) 0 = v.toNat) ∧
  ∀ h : Session, h.serve .dump = (.dumped (dump h.machine), h)
end

