-- ==== Sys2Proof/Laws/Bytes.lean ====
section
/-! SUPPORT. The laws of the byte order and of the bit fields: taking a word apart and putting it together (R43, R44), and
the 3-bit and 2-bit fields against the names they stand for (R20, R64). -/

namespace Sys2Proof

/-- The four bytes of a word make the word (R43, R44, R47). -/
@[simp] theorem wordOfBytes_byteOfWord (v : Word) :
    wordOfBytes (byteOfWord v 0) (byteOfWord v 1) (byteOfWord v 2) (byteOfWord v 3) = v := by
  apply BitVec.eq_of_getLsbD_eq
  intro i hi
  simp only [wordOfBytes, byteOfWord, BitVec.getLsbD_or, BitVec.getLsbD_shiftLeft, BitVec.getLsbD_setWidth,
    BitVec.getLsbD_extractLsb']
  interval_cases i <;> simp

/-- The bytes of an assembled word are the bytes it was made of (R43, R44, R47). -/
theorem byteOfWord_wordOfBytes (b0 b1 b2 b3 : Byte) :
    byteOfWord (wordOfBytes b0 b1 b2 b3) 0 = b0 ∧ byteOfWord (wordOfBytes b0 b1 b2 b3) 1 = b1 ∧
    byteOfWord (wordOfBytes b0 b1 b2 b3) 2 = b2 ∧ byteOfWord (wordOfBytes b0 b1 b2 b3) 3 = b3 := by
  refine ⟨?_, ?_, ?_, ?_⟩ <;>
  · apply BitVec.eq_of_getLsbD_eq
    intro i hi
    simp only [wordOfBytes, byteOfWord, BitVec.getLsbD_or, BitVec.getLsbD_shiftLeft, BitVec.getLsbD_setWidth,
      BitVec.getLsbD_extractLsb']
    interval_cases i <;> simp

/-- A register is the one its index names (R20). -/
@[simp] theorem Reg.ofBits_bits (r : Reg) : Reg.ofBits r.bits = r := by cases r <;> rfl

/-- An index is the index of the register it names (R20). -/
@[simp] theorem Reg.bits_ofBits (b : BitVec 3) : (Reg.ofBits b).bits = b := by revert b; decide

/-- A mode is the one its bits name (R64). -/
@[simp] theorem Mode.ofBits_bits (m : Mode) : Mode.ofBits m.bits = m := by cases m <;> rfl

/-- Two bits are the bits of the mode they name (R64). -/
@[simp] theorem Mode.bits_ofBits (b : BitVec 2) : (Mode.ofBits b).bits = b := by revert b; decide

/-- The ModRM byte holds its three fields where R64 puts them. -/
theorem modRMByte_fields (mode : Mode) (reg rm : BitVec 3) :
    Mode.ofBits ((modRMByte mode reg rm).extractLsb' 6 2) = mode ∧
    (modRMByte mode reg rm).extractLsb' 3 3 = reg ∧ (modRMByte mode reg rm).extractLsb' 0 3 = rm := by
  cases mode <;> (revert reg rm; decide)

/-- A ModRM byte is the one its three fields make (R64). -/
theorem modRMByte_of_fields (b : Byte) :
    modRMByte (Mode.ofBits (b.extractLsb' 6 2)) (b.extractLsb' 3 3) (b.extractLsb' 0 3) = b := by
  revert b; decide

end Sys2Proof
end

