-- ==== Sys2Proof/Laws/Decode.lean ====
section
/-! SUPPORT. One law per part of the decoder: what taking a byte, a word and a ModRM region does when the bytes are there, what
it means that it succeeded, and why it can fail (R63 to R70, R80, R82). -/

namespace Sys2Proof

/-- Taking a byte that is there (R48). -/
@[simp] theorem takeByte_cons (b : Byte) (rest : List Byte) : takeByte (b :: rest) = .ok (b, rest) := rfl

/-- Taking the four bytes of a word gives the word (R48). -/
@[simp] theorem takeWord_wordBytes (v : Word) (rest : List Byte) : takeWord (wordBytes v ++ rest) = .ok (v, rest) := by
  simp [takeWord, wordBytes]

/-- What was taken as a byte stood at the front. -/
theorem takeByte_ok {bytes rest : List Byte} {b : Byte} (h : takeByte bytes = .ok (b, rest)) : bytes = b :: rest := by
  cases bytes <;> simp_all [takeByte]

/-- What was taken as a word stood at the front, as that word's bytes. -/
theorem takeWord_ok {bytes rest : List Byte} {v : Word} (h : takeWord bytes = .ok (v, rest)) :
    bytes = wordBytes v ++ rest := by
  unfold takeWord at h
  split at h
  · rename_i b0 b1 b2 b3 r
    obtain ⟨rfl, rfl⟩ : wordOfBytes b0 b1 b2 b3 = v ∧ r = rest := by simpa using h
    simp [wordBytes, byteOfWord_wordOfBytes b0 b1 b2 b3]
  · cases h

/-- A byte is missing exactly where there is none. -/
theorem takeByte_error {bytes : List Byte} {e : DecodeError} :
    takeByte bytes = .error e ↔ e = .missing ∧ bytes = [] := by
  cases bytes <;> simp [takeByte, eq_comm]

/-- A word is missing exactly where there are fewer than four bytes. -/
theorem takeWord_error {bytes : List Byte} {e : DecodeError} :
    takeWord bytes = .error e ↔ e = .missing ∧ bytes.length < 4 := by
  unfold takeWord
  split
  · simp
  · rename_i short
    have : bytes.length < 4 := by
      match bytes with
      | [] | [_] | [_, _] | [_, _, _] => simp
      | b0 :: b1 :: b2 :: b3 :: rest => exact absurd rfl (short b0 b1 b2 b3 rest)
    simp [this, eq_comm]

/-- The region of a well-formed descriptor decodes to the descriptor (R63 to R67). -/
theorem decodeModRM_encodeModRM {d : Descriptor} (rest : List Byte) (h : d.wf = true) :
    decodeModRM (encodeModRM d ++ rest) = .ok (d, rest) := by
  obtain ⟨mode, reg, rm, sib, disp⟩ := d
  obtain ⟨hmode, hreg, hrm⟩ := modRMByte_fields mode reg rm
  simp only [Descriptor.wf, Descriptor.sibOk, Descriptor.dispOk, Bool.and_eq_true, beq_iff_eq] at h
  obtain ⟨hsib, hdisp⟩ := h
  simp only [decodeModRM, encodeModRM, List.cons_append, takeByte_cons, bind, Except.bind, hmode, hreg, hrm]
  cases mode <;> cases disp <;> cases sib <;>
    simp_all [takeSib, takeDisp, Disp.bytes, bind, Except.bind, pure, Except.pure]

/-- The ModRM region is as long as the table of R68 says. -/
theorem encodeModRM_length {d : Descriptor} (h : d.wf = true) : (encodeModRM d).length = d.length := by
  obtain ⟨mode, reg, rm, sib, disp⟩ := d
  simp only [Descriptor.wf, Descriptor.sibOk, Descriptor.dispOk, Bool.and_eq_true, beq_iff_eq] at h
  obtain ⟨hsib, hdisp⟩ := h
  cases mode <;> cases disp <;> cases sib <;>
    simp_all [encodeModRM, Disp.bytes, wordBytes, Descriptor.length, modRMLength]

/-- The ModRM region has one to six bytes (R68). -/
theorem modRMLength_bounds (mode : Mode) (rm : BitVec 3) : 1 ≤ modRMLength mode rm ∧ modRMLength mode rm ≤ 6 := by
  cases mode <;> simp [modRMLength] <;> split <;> (try split) <;> simp

/-- The ModRM byte tells the length of its region (R68). -/
@[simp] theorem modRMByteLength_modRMByte (mode : Mode) (reg rm : BitVec 3) :
    modRMByteLength (modRMByte mode reg rm) = modRMLength mode rm := by
  obtain ⟨hmode, -, hrm⟩ := modRMByte_fields mode reg rm
  rw [modRMByteLength, hmode, hrm]

/-- Under every handler an encoding has one to eleven bytes (R84). -/
theorem handlerLength_bounds (h : Handler) (modrm : Byte) :
    1 ≤ handlerLength h modrm ∧ handlerLength h modrm ≤ maxLength := by
  obtain ⟨hlow, hhigh⟩ := modRMLength_bounds (Mode.ofBits (modrm.extractLsb' 6 2)) (modrm.extractLsb' 0 3)
  cases h <;> simp only [handlerLength, modRMByteLength, maxLength] <;> omega

/-- A populated slot has its handler's length (R84). -/
theorem encodingLength_populated {opcode : Byte} {h : Handler} (hd : dispatch opcode = some h) (modrm : Byte) :
    encodingLength opcode modrm = some (handlerLength h modrm) := by
  simp [encodingLength, hd]

/-- An absent slot, and only it, has no length (R82, R84). -/
@[simp] theorem encodingLength_eq_none {opcode modrm : Byte} :
    encodingLength opcode modrm = none ↔ dispatch opcode = none := by
  simp [encodingLength]

/-- What the SIB step took: a byte where there is an escape, nothing otherwise (R65). -/
theorem takeSib_ok {mode : Mode} {rm : BitVec 3} {bytes rest : List Byte} {sib : Option Byte}
    (h : takeSib mode rm bytes = .ok (sib, rest)) :
    bytes = sib.toList ++ rest ∧ (sib.isSome = true ↔ mode ≠ .m11 ∧ rm = 4) := by
  unfold takeSib at h
  split at h
  · rename_i escape
    cases hb : takeByte bytes with
    | error e => simp [hb, bind, Except.bind] at h
    | ok x =>
      obtain ⟨rfl, rfl⟩ : some x.1 = sib ∧ x.2 = rest := by simpa [hb, bind, Except.bind, pure, Except.pure] using h
      exact ⟨takeByte_ok hb, by simpa using escape⟩
  · rename_i noEscape
    obtain ⟨rfl, rfl⟩ : none = sib ∧ bytes = rest := by simpa [pure, Except.pure] using h
    exact ⟨rfl, by simpa using noEscape⟩

/-- What the displacement step took: the bytes of a displacement the mode and rm allow (R66). -/
theorem takeDisp_ok {mode : Mode} {reg rm : BitVec 3} {sib : Option Byte} {bytes rest : List Byte} {disp : Disp}
    (h : takeDisp mode rm bytes = .ok (disp, rest)) :
    bytes = disp.bytes ++ rest ∧ (⟨mode, reg, rm, sib, disp⟩ : Descriptor).dispOk = true := by
  unfold takeDisp at h
  split at h
  · rename_i wide
    cases hw : takeWord bytes with
    | error e => simp [hw, bind, Except.bind] at h
    | ok x =>
      obtain ⟨rfl, rfl⟩ : Disp.disp32 x.1 = disp ∧ x.2 = rest := by
        simpa [hw, bind, Except.bind, pure, Except.pure] using h
      exact ⟨takeWord_ok hw, by cases mode <;> simp_all [Descriptor.dispOk]⟩
  · rename_i notWide
    split at h
    · rename_i narrow
      cases hb : takeByte bytes with
      | error e => simp [hb, bind, Except.bind] at h
      | ok x =>
        obtain ⟨rfl, rfl⟩ : Disp.disp8 x.1 = disp ∧ x.2 = rest := by
          simpa [hb, bind, Except.bind, pure, Except.pure] using h
        exact ⟨takeByte_ok hb, by simp [Descriptor.dispOk, narrow]⟩
    · rename_i notNarrow
      obtain ⟨rfl, rfl⟩ : Disp.none = disp ∧ bytes = rest := by simpa [pure, Except.pure] using h
      exact ⟨rfl, by cases mode <;> simp_all [Descriptor.dispOk]⟩

/-- What the operand decoder accepts is well formed and is exactly its region (R67, R69). -/
theorem decodeModRM_ok {bytes rest : List Byte} {d : Descriptor} (h : decodeModRM bytes = .ok (d, rest)) :
    d.wf = true ∧ bytes = encodeModRM d ++ rest := by
  simp only [decodeModRM, bind, Except.bind, pure, Except.pure] at h
  split at h
  · cases h
  rename_i x hx
  split at h
  · cases h
  rename_i y hy
  split at h
  · cases h
  rename_i z hz
  obtain ⟨rfl, rfl⟩ : _ = d ∧ _ = rest := by simpa using h
  obtain ⟨hsib, hesc⟩ := takeSib_ok (rest := y.2) hy
  obtain ⟨hdisp, hok⟩ := takeDisp_ok (reg := x.1.extractLsb' 3 3) (sib := y.1) (rest := z.2) hz
  refine ⟨?_, ?_⟩
  · simp only [Descriptor.wf, hok, Bool.and_true, Descriptor.sibOk, beq_iff_eq]
    rw [Bool.eq_iff_iff, hesc]
    simp
  · rw [takeByte_ok hx, encodeModRM, modRMByte_of_fields, hsib, hdisp]
    simp

/-- The SIB step fails only for want of a byte (R70). -/
theorem takeSib_error {mode : Mode} {rm : BitVec 3} {bytes : List Byte} {e : DecodeError}
    (h : takeSib mode rm bytes = .error e) : e = .missing := by
  unfold takeSib at h
  split at h
  · cases hb : takeByte bytes with
    | error e' =>
      obtain rfl : e' = e := by simpa [hb, bind, Except.bind] using h
      exact (takeByte_error.1 hb).1
    | ok x => simp [hb, bind, Except.bind, pure, Except.pure] at h
  · simp [pure, Except.pure] at h

/-- The displacement step fails only for want of a byte (R70). -/
theorem takeDisp_error {mode : Mode} {rm : BitVec 3} {bytes : List Byte} {e : DecodeError}
    (h : takeDisp mode rm bytes = .error e) : e = .missing := by
  unfold takeDisp at h
  split at h
  · cases hw : takeWord bytes with
    | error e' =>
      obtain rfl : e' = e := by simpa [hw, bind, Except.bind] using h
      exact (takeWord_error.1 hw).1
    | ok x => simp [hw, bind, Except.bind, pure, Except.pure] at h
  · split at h
    · cases hb : takeByte bytes with
      | error e' =>
        obtain rfl : e' = e := by simpa [hb, bind, Except.bind] using h
        exact (takeByte_error.1 hb).1
      | ok x => simp [hb, bind, Except.bind, pure, Except.pure] at h
    · simp [pure, Except.pure] at h

/-- The operand decoder fails only for want of a byte (R70). -/
theorem decodeModRM_error {bytes : List Byte} {e : DecodeError} (h : decodeModRM bytes = .error e) : e = .missing := by
  simp only [decodeModRM, bind, Except.bind, pure, Except.pure] at h
  repeat' split at h
  all_goals simp only [Except.error.injEq, reduceCtorEq] at h
  all_goals subst h
  · exact (takeByte_error.1 ‹_›).1
  · exact takeSib_error ‹_›
  · exact takeDisp_error ‹_›

/-- Why decoding fails: a missing byte, an absent opcode (R82), or a reg field of a group opcode that selects no operation
(R80). -/
theorem decode_error {bytes : List Byte} {e : DecodeError} (h : decode bytes = .error e) :
    e = .missing ∨ (∃ opcode rest, bytes = opcode :: rest ∧ dispatch opcode = none ∧ e = .opcode opcode) ∨
    ∃ opcode rest d r, bytes = opcode :: rest ∧ decodeModRM rest = .ok (d, r) ∧ d.reg ≠ 0 ∧
      (dispatch opcode = some .groupFF ∨ dispatch opcode = some .group83 ∧ d.reg ≠ 5) ∧ e = .extension opcode d.reg := by
  cases bytes with
  | nil => exact .inl (by simpa [decode, eq_comm] using h)
  | cons opcode rest =>
    simp only [decode] at h
    split at h
    · rename_i absent
      exact .inr (.inl ⟨opcode, rest, rfl, absent, by simpa [eq_comm] using h⟩)
    · rename_i handler hd
      cases handler <;> simp only [decodeOperands, bind, Except.bind, pure, Except.pure] at h
      all_goals repeat' split at h
      all_goals first
        | (cases h; done)
        | (obtain rfl : _ = e := by simpa using h
           exact .inl (by first
             | exact decodeModRM_error ‹_›
             | exact (takeByte_error.1 ‹_›).1
             | exact (takeWord_error.1 ‹_›).1))
        | (obtain rfl : _ = e := by simpa using h
           exact .inr (.inr ⟨opcode, rest, _, _, rfl, ‹_›, ‹_›, by first | exact .inl hd | exact .inr ⟨hd, ‹_›⟩, rfl⟩))

end Sys2Proof
end

