-- ==== Sys2Proof/Laws/Memory.lean ====
section
/-! SUPPORT. The laws of memory as data: read after write, writes elsewhere, the canonical form kept by every operation, and
equal reads make equal memories. -/

namespace Sys2Proof.Machine

/-- An address below every listed one reads as an unlisted one. -/
theorem Memory.read_of_lt_all {m : Memory} {a : Nat} (h : ∀ c ∈ m, a < c.1) :
    Memory.read m a = Config.unlistedByte := by
  induction m with
  | nil => rfl
  | cons c rest ih =>
    have hc := h c (by simp)
    simp only [Memory.read]
    rw [if_neg (by omega), ih (fun d hd => h d (by simp [hd]))]

/-- A write leaves every other address alone. -/
theorem Memory.read_write_other (m : Memory) {a b : Nat} (v : Byte) (h : b ≠ a) :
    Memory.read (Memory.write m a v) b = Memory.read m b := by
  induction m with
  | nil => simp only [Memory.write]; split <;> simp [Memory.read, Ne.symm h]
  | cons c rest ih =>
    simp only [Memory.write]
    split
    · simp only [Memory.read, ih]
    · split
      · split <;> simp [Memory.read]
        omega
      · split <;> simp [Memory.read, Ne.symm h]
        omega

/-- In canonical form, an address that was written reads as the byte written. -/
theorem Memory.read_write_same {m : Memory} (hm : Memory.wf m) (a : Nat) (v : Byte) :
    Memory.read (Memory.write m a v) a = v := by
  induction m with
  | nil => simp only [Memory.write]; split <;> simp_all [Memory.read]
  | cons c rest ih =>
    obtain ⟨hp, hv⟩ := hm
    rw [List.pairwise_cons] at hp
    have hrest : Memory.wf rest := ⟨hp.2, fun d hd => hv d (by simp [hd])⟩
    simp only [Memory.write]
    split
    · rename_i hlt
      simp only [Memory.read]
      rw [if_neg (by omega), ih hrest]
    · rename_i hnlt
      split
      · rename_i hu
        split
        · rename_i heq
          rw [Memory.read_of_lt_all (fun d hd => heq ▸ hp.1 d hd), hu]
        · rename_i hne
          rw [Memory.read_of_lt_all (m := c :: rest), hu]
          intro d hd
          rcases List.mem_cons.mp hd with rfl | hd
          · omega
          · have := hp.1 d hd
            omega
      · simp [Memory.read]

/-- The cells of a written memory are the new one and old ones. -/
theorem Memory.mem_write {m : Memory} {a : Nat} {v : Byte} {c : Host.Cell} (h : c ∈ Memory.write m a v) :
    c = (a, v) ∨ c ∈ m := by
  induction m with
  | nil => simp only [Memory.write] at h; split at h <;> simp_all
  | cons d rest ih =>
    simp only [Memory.write] at h
    split at h
    · rcases List.mem_cons.mp h with rfl | h
      · exact .inr (by simp)
      · exact (ih h).imp_right (by simp +contextual)
    · split at h <;> split at h <;> (simp_all; try tauto)

/-- A write keeps the canonical form. -/
theorem Memory.wf_write {m : Memory} (hm : Memory.wf m) (a : Nat) (v : Byte) : Memory.wf (Memory.write m a v) := by
  induction m with
  | nil => simp only [Memory.write]; split <;> simp_all [Memory.wf]
  | cons c rest ih =>
    obtain ⟨hp, hv⟩ := hm
    have hp' := List.pairwise_cons.mp hp
    have hrest : Memory.wf rest := ⟨hp'.2, fun d hd => hv d (by simp [hd])⟩
    obtain ⟨ihp, ihv⟩ := ih hrest
    simp only [Memory.write]
    split
    · refine ⟨List.pairwise_cons.mpr ⟨fun d hd => ?_, ihp⟩, fun d hd => ?_⟩
      · rcases Memory.mem_write hd with rfl | hd
        · assumption
        · exact hp'.1 d hd
      · rcases List.mem_cons.mp hd with rfl | hd
        · exact hv _ (by simp)
        · exact ihv d hd
    · have htail : Memory.wf (if c.1 = a then rest else c :: rest) := by
        split
        · exact hrest
        · exact ⟨hp, hv⟩
      have hgt : ∀ d ∈ (if c.1 = a then rest else c :: rest), a < d.1 := by
        intro d hd
        split at hd
        · rename_i heq
          exact heq ▸ hp'.1 d hd
        · rcases List.mem_cons.mp hd with rfl | hd
          · omega
          · have := hp'.1 d hd
            omega
      split
      · exact htail
      · rename_i hne
        refine ⟨List.pairwise_cons.mpr ⟨hgt, htail.1⟩, fun d hd => ?_⟩
        rcases List.mem_cons.mp hd with rfl | hd
        · exact hne
        · exact htail.2 d hd

/-- Equal reads make equal memories, in canonical form. -/
theorem Memory.ext_read {m n : Memory} (hm : Memory.wf m) (hn : Memory.wf n)
    (h : ∀ a, Memory.read m a = Memory.read n a) : m = n := by
  induction m generalizing n with
  | nil =>
    cases n with
    | nil => rfl
    | cons d tail =>
      have hd := h d.1
      simp only [Memory.read, if_true] at hd
      exact absurd hd.symm (hn.2 d (by simp))
  | cons c rest ih =>
    obtain ⟨hp, hv⟩ := hm
    have hp' := List.pairwise_cons.mp hp
    cases n with
    | nil =>
      have hc := h c.1
      simp only [Memory.read, if_true] at hc
      exact absurd hc (hv c (by simp))
    | cons d tail =>
      obtain ⟨hq, hw⟩ := hn
      have hq' := List.pairwise_cons.mp hq
      have below : ∀ {x : Host.Cell} {l : Memory} {a : Nat}, (∀ e ∈ l, x.1 < e.1) → a < x.1 →
          Memory.read (x :: l) a = Config.unlistedByte := by
        intro x l a hl ha
        refine Memory.read_of_lt_all fun e he => ?_
        rcases List.mem_cons.mp he with rfl | he
        · exact ha
        · exact Nat.lt_trans ha (hl e he)
      have hkey : c.1 = d.1 := by
        rcases Nat.lt_trichotomy c.1 d.1 with hlt | heq | hgt
        · have hc := h c.1
          rw [below hq'.1 hlt] at hc
          simp only [Memory.read, if_true] at hc
          exact absurd hc (hv c (by simp))
        · exact heq
        · have hd := h d.1
          rw [below hp'.1 hgt] at hd
          simp only [Memory.read, if_true] at hd
          exact absurd hd.symm (hw d (by simp))
      have hval : c.2 = d.2 := by
        have hc := h c.1
        simpa only [Memory.read, if_true, if_pos hkey.symm] using hc
      have hcd : c = d := Prod.ext hkey hval
      subst hcd
      congr 1
      refine ih ⟨hp'.2, fun e he => hv e (by simp [he])⟩ ⟨hq'.2, fun e he => hw e (by simp [he])⟩ fun a => ?_
      by_cases ha : c.1 = a
      · subst ha
        rw [Memory.read_of_lt_all hp'.1, Memory.read_of_lt_all hq'.1]
      · have hr := h a
        simpa only [Memory.read, if_neg ha] using hr

/-- A bounded write of bytes keeps the canonical form. -/
theorem Memory.wf_writeBelow (limit : Nat) {m : Memory} (hm : Memory.wf m) (a : Nat) (vs : List Byte) :
    Memory.wf (Memory.writeBelow limit m a vs) := by
  induction vs generalizing m a with
  | nil => exact hm
  | cons v vs ih =>
    simp only [Memory.writeBelow]
    refine ih ?_ (a + 1)
    split
    · exact Memory.wf_write hm a v
    · exact hm

/-- A bounded write of bytes lists no address at or above the limit that was not listed before. -/
theorem Memory.mem_writeBelow {limit : Nat} {m : Memory} {a : Nat} {vs : List Byte} {c : Host.Cell}
    (h : c ∈ Memory.writeBelow limit m a vs) : c ∈ m ∨ c.1 < limit := by
  induction vs generalizing m a with
  | nil => exact .inl h
  | cons v vs ih =>
    simp only [Memory.writeBelow] at h
    rcases ih h with h | h
    · split at h
      · rename_i hlt
        rcases Memory.mem_write h with rfl | h
        · exact .inr hlt
        · exact .inl h
      · exact .inl h
    · exact .inr h

/-- A bounded write of bytes leaves every address outside them alone. -/
theorem Memory.read_writeBelow_other (limit : Nat) (m : Memory) (a : Nat) (vs : List Byte) {b : Nat}
    (h : b < a ∨ a + vs.length ≤ b) : Memory.read (Memory.writeBelow limit m a vs) b = Memory.read m b := by
  induction vs generalizing m a with
  | nil => rfl
  | cons v vs ih =>
    simp only [List.length_cons] at h
    simp only [Memory.writeBelow]
    rw [ih _ (a + 1) (by omega)]
    split
    · exact Memory.read_write_other m v (by omega)
    · rfl

/-- Each byte of a bounded write that lies below the limit reads as the byte written. -/
theorem Memory.read_writeBelow (limit : Nat) {m : Memory} (hm : Memory.wf m) (a : Nat) (vs : List Byte) (k : Nat)
    (hk : k < vs.length) (hl : a + k < limit) : Memory.read (Memory.writeBelow limit m a vs) (a + k) = vs[k] := by
  induction vs generalizing m a k with
  | nil => simp at hk
  | cons v vs ih =>
    simp only [Memory.writeBelow]
    cases k with
    | zero =>
      rw [Memory.read_writeBelow_other _ _ _ _ (by omega), if_pos (by omega), Nat.add_zero]
      exact Memory.read_write_same hm a v
    | succ k =>
      have hm' : Memory.wf (if a < limit then Memory.write m a v else m) := by
        split
        · exact Memory.wf_write hm a v
        · exact hm
      have := ih hm' (a + 1) k (by simpa using hk) (by omega)
      rw [show a + (k + 1) = a + 1 + k by omega, this]
      rfl

/-- Nothing of a bounded write at or above the limit lands. -/
theorem Memory.writeBelow_of_le {limit : Nat} (m : Memory) {a : Nat} (vs : List Byte) (h : limit ≤ a) :
    Memory.writeBelow limit m a vs = m := by
  induction vs generalizing a with
  | nil => rfl
  | cons v vs ih =>
    simp only [Memory.writeBelow]
    rw [if_neg (by omega), ih (by omega)]

/-- A word store that fits is the bounded write of its four bytes (R44). -/
theorem Memory.writeBelow_wordBytes {limit : Nat} (m : Memory) {a : Nat} (v : Word) (h : a + 3 < limit) :
    Memory.writeBelow limit m a (wordBytes v) = Memory.writeWord m a v := by
  simp only [wordBytes, Memory.writeBelow, Memory.writeWord]
  rw [if_pos (by omega), if_pos (by omega), if_pos (by omega), if_pos (by omega)]

/-- A word store keeps the canonical form. -/
theorem Memory.wf_writeWord {m : Memory} (hm : Memory.wf m) (a : Nat) (v : Word) :
    Memory.wf (Memory.writeWord m a v) := by
  rw [← Memory.writeBelow_wordBytes (limit := a + 4) m v (by omega)]
  exact Memory.wf_writeBelow _ hm a _

/-- A word store leaves every address outside its four bytes alone (R44). -/
theorem Memory.read_writeWord_other (m : Memory) (a : Nat) (v : Word) {b : Nat} (h : b < a ∨ a + 4 ≤ b) :
    Memory.read (Memory.writeWord m a v) b = Memory.read m b := by
  rw [← Memory.writeBelow_wordBytes (limit := a + 4) m v (by omega)]
  exact Memory.read_writeBelow_other _ m a _ (by simpa [wordBytes] using h)

end Sys2Proof.Machine
end

