-- ==== Sys2Proof/Laws/State.lean ====
section
/-! SUPPORT. One lemma per field per update of the state, and the laws of the register file, so that no later proof unfolds a
record update. -/

namespace Sys2Proof.Machine

@[simp] theorem State.setReg_regs (s : State) (r : Reg) (v : Word) : (s.setReg r v).regs = s.regs.set r v := rfl
@[simp] theorem State.setReg_pc (s : State) (r : Reg) (v : Word) : (s.setReg r v).pc = s.pc := rfl
@[simp] theorem State.setReg_flags (s : State) (r : Reg) (v : Word) : (s.setReg r v).flags = s.flags := rfl
@[simp] theorem State.setReg_memSize (s : State) (r : Reg) (v : Word) : (s.setReg r v).memSize = s.memSize := rfl
@[simp] theorem State.setReg_mem (s : State) (r : Reg) (v : Word) : (s.setReg r v).mem = s.mem := rfl
@[simp] theorem State.setReg_status (s : State) (r : Reg) (v : Word) : (s.setReg r v).status = s.status := rfl

@[simp] theorem State.setPc_regs (s : State) (t : Word) : (s.setPc t).regs = s.regs := rfl
@[simp] theorem State.setPc_pc (s : State) (t : Word) : (s.setPc t).pc = t := rfl
@[simp] theorem State.setPc_flags (s : State) (t : Word) : (s.setPc t).flags = s.flags := rfl
@[simp] theorem State.setPc_memSize (s : State) (t : Word) : (s.setPc t).memSize = s.memSize := rfl
@[simp] theorem State.setPc_mem (s : State) (t : Word) : (s.setPc t).mem = s.mem := rfl
@[simp] theorem State.setPc_status (s : State) (t : Word) : (s.setPc t).status = s.status := rfl

@[simp] theorem State.advance_regs (s : State) (n : Nat) : (s.advance n).regs = s.regs := rfl
@[simp] theorem State.advance_pc (s : State) (n : Nat) : (s.advance n).pc = s.pc + BitVec.ofNat 32 n := rfl
@[simp] theorem State.advance_flags (s : State) (n : Nat) : (s.advance n).flags = s.flags := rfl
@[simp] theorem State.advance_memSize (s : State) (n : Nat) : (s.advance n).memSize = s.memSize := rfl
@[simp] theorem State.advance_mem (s : State) (n : Nat) : (s.advance n).mem = s.mem := rfl
@[simp] theorem State.advance_status (s : State) (n : Nat) : (s.advance n).status = s.status := rfl

@[simp] theorem takeFault_regs (f : Fault) (s : State) : (takeFault f s).regs = s.regs := rfl
@[simp] theorem takeFault_pc (f : Fault) (s : State) : (takeFault f s).pc = s.pc := rfl
@[simp] theorem takeFault_flags (f : Fault) (s : State) : (takeFault f s).flags = s.flags := rfl
@[simp] theorem takeFault_memSize (f : Fault) (s : State) : (takeFault f s).memSize = s.memSize := rfl
@[simp] theorem takeFault_mem (f : Fault) (s : State) : (takeFault f s).mem = s.mem := rfl
@[simp] theorem takeFault_status (f : Fault) (s : State) : (takeFault f s).status = .faulted f := rfl

@[simp] theorem finish_ok (s : State) : finish (.ok s) = .next s := rfl
@[simp] theorem finish_error (r : Raised) : finish (.error r) = .next (takeFault r.fault r.state) := rfl

/-- `getReg` reads the register file; simp's normal form is the read of the file. -/
@[simp] theorem State.getReg_eq (s : State) (r : Reg) : s.getReg r = s.regs.get r := rfl

/-- A register that was written reads as the value written (R23). -/
@[simp] theorem RegFile.get_set_same (f : RegFile) (r : Reg) (v : Word) : (f.set r v).get r = v := by
  cases r <;> rfl

/-- Writing one register leaves every other one alone (R23). -/
theorem RegFile.get_set_other (f : RegFile) {r q : Reg} (v : Word) (h : q ≠ r) : (f.set r v).get q = f.get q := by
  cases r <;> cases q <;> first | rfl | exact absurd rfl h

/-- The second of two writes to one register is the one that stays. -/
@[simp] theorem RegFile.set_set_same (f : RegFile) (r : Reg) (v w : Word) : (f.set r v).set r w = f.set r w := by
  cases r <;> rfl

/-- Two register files that read the same are the same. -/
theorem RegFile.ext_get {f g : RegFile} (h : ∀ r, f.get r = g.get r) : f = g := by
  cases f; cases g
  have := h .eax; have := h .ecx; have := h .edx; have := h .ebx
  have := h .esp; have := h .ebp; have := h .esi; have := h .edi
  simp_all [RegFile.get]

/-- Check-Terminal writes nothing but the status (R182). -/
theorem checkTerminal_eq (s : State) :
    checkTerminal s = s ∨ (s.status = .running ∧ s.pc = 0 ∧ checkTerminal s = { s with status := .halted }) := by
  unfold checkTerminal
  split
  · rename_i h
    exact .inr ⟨h.1, h.2, rfl⟩
  · exact .inl rfl

end Sys2Proof.Machine
end

