-- ==== Sys2Proof/Laws/Ops.lean ====
section
/-! SUPPORT. One law per shared operation that says once everything it can do: the memory accesses (R42 to R44) and the stack
primitives (R50, R51), in range and out of range.  Callers cite these instead of unfolding the operation. -/

namespace Sys2Proof.Machine

/-- A word read that fits (R43). -/
theorem memRead32_in_range {a : Nat} {s : State} (h : a + 3 < s.memSize) :
    memRead32 a s = .ok (Memory.readWord s.mem a) := by
  simp only [memRead32, memRead8, bind, Except.bind, pure, Except.pure, Memory.readWord]
  rw [if_pos (by omega), if_pos (by omega), if_pos (by omega), if_pos (by omega)]

/-- A word read that does not fit: the fault at its first byte at or above the capacity, nothing changed (R42, R43). -/
theorem memRead32_out_of_range {a : Nat} {s : State} (h : s.memSize ≤ a + 3) :
    memRead32 a s = .error ⟨.outOfRange (max a s.memSize) s.pc, s⟩ := by
  simp only [memRead32, memRead8, raise, bind, Except.bind, pure, Except.pure]
  have place : s.memSize ≤ a ∨ s.memSize = a + 1 ∨ s.memSize = a + 2 ∨ s.memSize = a + 3 := by omega
  obtain h | h | h | h := place
  · rw [if_neg (by omega), show max a s.memSize = a by omega]
  · rw [if_pos (by omega), show max a s.memSize = a + 1 by omega]; simp [h]
  · rw [if_pos (by omega), show max a s.memSize = a + 2 by omega]; simp [h]
  · rw [if_pos (by omega), show max a s.memSize = a + 3 by omega]; simp [h]

/-- A word write that fits (R44). -/
theorem memWrite32_in_range {a : Nat} {v : Word} {s : State} (h : a + 3 < s.memSize) :
    memWrite32 a v s = .ok { s with mem := Memory.writeWord s.mem a v } := by
  simp only [memWrite32, memWrite8, bind, Except.bind, Memory.writeWord]
  rw [if_pos (by omega)]
  dsimp only
  rw [if_pos (by omega)]
  dsimp only
  rw [if_pos (by omega)]
  dsimp only
  rw [if_pos (by omega)]

/-- A word write that does not fit: the bytes below the capacity are written, then the fault at the first byte at or above
it (R44, D9). -/
theorem memWrite32_out_of_range {a : Nat} {v : Word} {s : State} (h : s.memSize ≤ a + 3) :
    memWrite32 a v s = .error ⟨.outOfRange (max a s.memSize) s.pc,
      { s with mem := Memory.writeBelow s.memSize s.mem a (wordBytes v) }⟩ := by
  simp only [memWrite32, memWrite8, raise, bind, Except.bind, wordBytes, Memory.writeBelow]
  have place : s.memSize ≤ a ∨ s.memSize = a + 1 ∨ s.memSize = a + 2 ∨ s.memSize = a + 3 := by omega
  obtain h | h | h | h := place
  · rw [if_neg (by omega), show max a s.memSize = a by omega, if_neg (by omega), if_neg (by omega), if_neg (by omega)]
    simp [Nat.not_lt.mpr h]
  · rw [show max a s.memSize = a + 1 by omega]; simp [h]; omega
  · rw [show max a s.memSize = a + 2 by omega]; simp [h]
  · rw [show max a s.memSize = a + 3 by omega]; simp [h]

/-- A push that fits (R50). -/
theorem push32_in_range {v : Word} {s : State} (h : (s.regs.esp - 4).toNat + 3 < s.memSize) :
    push32 v s = .ok { s with
      regs := s.regs.set .esp (s.regs.esp - 4)
      mem := Memory.writeWord s.mem (s.regs.esp - 4).toNat v } := by
  exact memWrite32_in_range (a := (s.regs.esp - 4).toNat) (v := v) (s := s.setReg .esp (s.regs.esp - 4)) h

/-- A push that does not fit: ESP is decremented all the same and the bytes below the capacity are written (R50, D9). -/
theorem push32_out_of_range {v : Word} {s : State} (h : s.memSize ≤ (s.regs.esp - 4).toNat + 3) :
    push32 v s = .error ⟨.outOfRange (max (s.regs.esp - 4).toNat s.memSize) s.pc, { s with
      regs := s.regs.set .esp (s.regs.esp - 4)
      mem := Memory.writeBelow s.memSize s.mem (s.regs.esp - 4).toNat (wordBytes v) }⟩ := by
  exact memWrite32_out_of_range (a := (s.regs.esp - 4).toNat) (v := v) (s := s.setReg .esp (s.regs.esp - 4)) h

/-- A pop that fits (R51). -/
theorem pop32_in_range {s : State} (h : s.regs.esp.toNat + 3 < s.memSize) :
    pop32 s = .ok (Memory.readWord s.mem s.regs.esp.toNat, s.setReg .esp (s.regs.esp + 4)) := by
  simp [pop32, RegFile.get, memRead32_in_range h, add32, bind, Except.bind, pure, Except.pure]

/-- A pop that does not fit: nothing is changed (R51). -/
theorem pop32_out_of_range {s : State} (h : s.memSize ≤ s.regs.esp.toNat + 3) :
    pop32 s = .error ⟨.outOfRange (max s.regs.esp.toNat s.memSize) s.pc, s⟩ := by
  simp [pop32, RegFile.get, memRead32_out_of_range h, bind, Except.bind]

end Sys2Proof.Machine
end

