-- ==== Sys2Proof/Laws/Operands.lean ====
section
/-! SUPPORT. The laws of the operand forms: what the effective address can be (R71 to R73) and what an access of the r/m
operand does in each form (R75, R76). -/

namespace Sys2Proof.Machine

/-- Every memory mode but the SIB escape has an effective address (R71). -/
theorem effectiveAddress_memory {d : Descriptor} {s : State} (hm : d.mode ≠ .m11) (hr : d.rm ≠ 4) :
    ∃ a, effectiveAddress d s = .ok a := by
  unfold effectiveAddress
  cases h : d.mode <;> simp_all
  split <;> simp

/-- The SIB escape has none, in all three memory modes (R72, conflict C1). -/
theorem effectiveAddress_sib {d : Descriptor} {s : State} (hm : d.mode ≠ .m11) (hr : d.rm = 4) :
    effectiveAddress d s = .error ⟨.unsupportedAddressingForm d.mode 4 s.pc, s⟩ := by
  unfold effectiveAddress
  cases h : d.mode <;> simp_all [raise]

/-- Mode 11 has none (R73). -/
theorem effectiveAddress_direct {d : Descriptor} {s : State} (hm : d.mode = .m11) :
    effectiveAddress d s = .error ⟨.unsupportedAddressingForm .m11 d.rm s.pc, s⟩ := by
  simp [effectiveAddress, hm, raise]

/-- Reading a register operand (R75). -/
theorem getRm32_direct {d : Descriptor} {s : State} (hm : d.mode = .m11) :
    getRm32 d s = .ok (s.regs.get (Reg.ofBits d.rm)) := by
  simp [getRm32, hm]

/-- Reading a memory operand is an address and a word read (R75). -/
theorem getRm32_memory {d : Descriptor} {s : State} (hm : d.mode ≠ .m11) :
    getRm32 d s = (effectiveAddress d s).bind fun a => memRead32 a.toNat s := by
  cases h : d.mode <;> simp_all [getRm32, bind]

/-- Writing a register operand (R76). -/
theorem setRm32_direct {d : Descriptor} {v : Word} {s : State} (hm : d.mode = .m11) :
    setRm32 d v s = .ok (s.setReg (Reg.ofBits d.rm) v) := by
  simp [setRm32, hm]

/-- Writing a memory operand is an address and a word write (R76). -/
theorem setRm32_memory {d : Descriptor} {v : Word} {s : State} (hm : d.mode ≠ .m11) :
    setRm32 d v s = (effectiveAddress d s).bind fun a => memWrite32 a.toNat v s := by
  cases h : d.mode <;> simp_all [setRm32, bind]

/-- The effective address does not depend on memory, flags or status: only on the registers and, for a fault, pc and the
state it is raised in (R71). -/
theorem effectiveAddress_ok_congr {d : Descriptor} {s t : State} {a : Word} (hr : s.regs = t.regs)
    (h : effectiveAddress d s = .ok a) : effectiveAddress d t = .ok a := by
  unfold effectiveAddress at h ⊢
  cases hm : d.mode <;> simp_all [raise] <;> split at h <;> simp_all

end Sys2Proof.Machine
end

