-- ==== Sys2Proof/Laws/PerInstr.lean ====
section
/-! SUPPORT. Laws of the instruction as syntax, one lemma per constructor: the first byte of its encoding is an opcode the
dispatch table holds. -/

namespace Sys2Proof.Laws.OpcodeDispatched

/-- The encoding begins with an opcode whose dispatch slot is populated (R62, R79). -/
def Statement (i : Instr) : Prop :=
  ∃ opcode rest h, encode i = opcode :: rest ∧ dispatch opcode = some h

/-- An OP+r opcode dispatches like its base (R62, R79). -/
theorem dispatch_opcodeWithReg (r : Reg) :
    dispatch (opcodeWithReg 0x50 r) = some .pushR32 ∧ dispatch (opcodeWithReg 0x58 r) = some .popR32 ∧
    dispatch (opcodeWithReg 0xB8 r) = some .movR32Imm32 := by
  cases r <;> decide

theorem movR32Imm32 (r : Reg) (imm : Word) : Statement (.movR32Imm32 r imm) :=
  ⟨_, _, _, rfl, (dispatch_opcodeWithReg r).2.2⟩
theorem movRm32Imm32 (d : Descriptor) (imm : Word) : Statement (.movRm32Imm32 d imm) :=
  ⟨_, _, .movRm32Imm32, rfl, by decide⟩
theorem movRm32R32 (d : Descriptor) : Statement (.movRm32R32 d) := ⟨_, _, .movRm32R32, rfl, by decide⟩
theorem movR32Rm32 (d : Descriptor) : Statement (.movR32Rm32 d) := ⟨_, _, .movR32Rm32, rfl, by decide⟩
theorem addRm32R32 (d : Descriptor) : Statement (.addRm32R32 d) := ⟨_, _, .addRm32R32, rfl, by decide⟩
theorem addRm32Imm8 (d : Descriptor) (imm : Byte) : Statement (.addRm32Imm8 d imm) :=
  ⟨_, _, .group83, rfl, by decide⟩
theorem subRm32Imm8 (d : Descriptor) (imm : Byte) : Statement (.subRm32Imm8 d imm) :=
  ⟨_, _, .group83, rfl, by decide⟩
theorem incRm32 (d : Descriptor) : Statement (.incRm32 d) := ⟨_, _, .groupFF, rfl, by decide⟩
theorem pushR32 (r : Reg) : Statement (.pushR32 r) := ⟨_, _, _, rfl, (dispatch_opcodeWithReg r).1⟩
theorem pushImm32 (imm : Word) : Statement (.pushImm32 imm) := ⟨_, _, .pushImm32, rfl, by decide⟩
theorem pushImm8 (imm : Byte) : Statement (.pushImm8 imm) := ⟨_, _, .pushImm8, rfl, by decide⟩
theorem popR32 (r : Reg) : Statement (.popR32 r) := ⟨_, _, _, rfl, (dispatch_opcodeWithReg r).2.1⟩
theorem leave : Statement .leave := ⟨_, _, .leave, rfl, by decide⟩
theorem callRel32 (rel : Word) : Statement (.callRel32 rel) := ⟨_, _, .callRel32, rfl, by decide⟩
theorem ret : Statement .ret := ⟨_, _, .ret, rfl, by decide⟩
theorem jmpRel8 (rel : Byte) : Statement (.jmpRel8 rel) := ⟨_, _, .shortJump, rfl, by decide⟩
theorem jmpRel32 (rel : Word) : Statement (.jmpRel32 rel) := ⟨_, _, .nearJump, rfl, by decide⟩

end Sys2Proof.Laws.OpcodeDispatched
end

