-- ==== Sys2Proof/Laws/Step.lean ====
section
/-! SUPPORT. The laws of one step: the fetch window (R48), the end of a step (R182), the three cases of a step (R180, R184), and
one induction over a run that every invariant uses. -/

namespace Sys2Proof.Machine

/-- The window is as long as the longest instruction, or reaches the end of memory. -/
@[simp] theorem fetchWindow_length (s : State) :
    (fetchWindow s).length = min maxLength (s.memSize - s.pc.toNat) := by
  simp [fetchWindow]

/-- A byte of the window is the byte of memory at its offset from pc (R48). -/
@[simp] theorem fetchWindow_getElem (s : State) (k : Nat) (h : k < (fetchWindow s).length) :
    (fetchWindow s)[k] = Memory.read s.mem (s.pc.toNat + k) := by
  simp [fetchWindow]

/-- With pc at or above the capacity the window is empty (R183). -/
theorem fetchWindow_above {s : State} (h : s.memSize ≤ s.pc.toNat) : fetchWindow s = [] := by
  apply List.eq_nil_of_length_eq_zero
  rw [fetchWindow_length]
  omega

/-- Bytes that stand at pc, in range and no more than the longest instruction's, are the front of the window. -/
theorem fetchWindow_prefix {s : State} {bytes : List Byte} (hlen : bytes.length ≤ maxLength)
    (hin : s.pc.toNat + bytes.length ≤ s.memSize)
    (hbytes : ∀ k (h : k < bytes.length), Memory.read s.mem (s.pc.toNat + k) = bytes[k]) :
    ∃ rest, fetchWindow s = bytes ++ rest := by
  refine ⟨(fetchWindow s).drop bytes.length, ?_⟩
  conv_lhs => rw [← List.take_append_drop bytes.length (fetchWindow s)]
  congr 1
  apply List.ext_getElem
  · rw [List.length_take, fetchWindow_length]
    omega
  · intro k h1 h2
    rw [List.getElem_take, fetchWindow_getElem, hbytes]

/-- Check-Terminal on a running machine: Halted at pc 0 and Running elsewhere (R182). -/
theorem checkTerminal_running {s : State} (h : s.status = .running) :
    (checkTerminal s).status = if s.pc = 0 then .halted else .running := by
  unfold checkTerminal
  split <;> simp_all

/-- Check-Terminal leaves a machine that is not running as it is (R184). -/
theorem checkTerminal_final {s : State} (h : s.status ≠ .running) : checkTerminal s = s := by
  simp [checkTerminal, h]

/-- The three cases of a step: a final state stays as it is (R184); the bytes at pc are no instruction and the fault is taken
with nothing else changed (R183, R187, R188); or the instruction at pc runs (R180). -/
theorem step_cases (s : State) :
    (s.status ≠ .running ∧ step s = .next s) ∨
    (s.status = .running ∧ ∃ e, decode (fetchWindow s) = .error e ∧ step s = .next (takeFault (fetchFault s e) s)) ∨
    (s.status = .running ∧ ∃ i rest, decode (fetchWindow s) = .ok (i, rest) ∧ step s = afterExecute (exec i s)) := by
  unfold step fetch
  cases h : s.status with
  | running =>
    cases hd : decode (fetchWindow s) with
    | ok x => exact .inr (.inr ⟨rfl, x.1, x.2, rfl, rfl⟩)
    | error e => exact .inr (.inl ⟨rfl, e, rfl, rfl⟩)
  | halted => exact .inl ⟨by simp, rfl⟩
  | faulted f => exact .inl ⟨by simp, rfl⟩

/-- What every step keeps, every run keeps. -/
theorem run_keeps {P : State → Prop} (keep : ∀ s t, P s → step s = .next t → P t) (k : Nat) {s t : State} (hs : P s)
    (h : Sys2Proof.core.run k s = .next t) : P t := by
  induction k generalizing s with
  | zero =>
    injection h with h
    exact h ▸ hs
  | succ k ih =>
    simp only [Host.Core.run] at h
    cases hstep : step s with
    | next u =>
      rw [show Sys2Proof.core.step s = .next u from hstep] at h
      exact ih (keep s u hs hstep) h
    | fault f =>
      rw [show Sys2Proof.core.step s = .fault f from hstep] at h
      cases h
    | refused r =>
      rw [show Sys2Proof.core.step s = .refused r from hstep] at h
      cases h

end Sys2Proof.Machine
end

