-- ==== Sys2Proof/Tests/Slice0.lean ====
section
/-! SUPPORT. The model's own tests.  Expected results come from 95_test_vectors.md (its part and row are named) or are worked out
by hand from the rule named; the witnesses show states that meet the hypotheses of each statement, clause by clause. -/

namespace Sys2Proof.Tests

open Sys2Proof.Machine Sys2Proof.Statements

/-! ## Well-formedness: one ill-formed term for each check -/

theorem test_wf_sib_missing : Descriptor.wf ⟨.m01, 0, 4, none, .disp8 0⟩ = false := by decide
theorem test_wf_sib_extra : Descriptor.wf ⟨.m11, 0, 4, some 0x24, .none⟩ = false := by decide
theorem test_wf_sib_extra_rm : Descriptor.wf ⟨.m00, 0, 3, some 0x24, .none⟩ = false := by decide
theorem test_wf_absolute_without_word : Descriptor.wf ⟨.m00, 0, 5, none, .none⟩ = false := by decide
theorem test_wf_word_without_absolute : Descriptor.wf ⟨.m00, 0, 3, none, .disp32 0⟩ = false := by decide
theorem test_wf_byte_in_mode_00 : Descriptor.wf ⟨.m00, 0, 3, none, .disp8 0⟩ = false := by decide
theorem test_wf_word_in_mode_01 : Descriptor.wf ⟨.m01, 0, 3, none, .disp32 0⟩ = false := by decide
theorem test_wf_none_in_mode_01 : Descriptor.wf ⟨.m01, 0, 3, none, .none⟩ = false := by decide
theorem test_wf_byte_in_mode_10 : Descriptor.wf ⟨.m10, 0, 3, none, .disp8 0⟩ = false := by decide
theorem test_wf_none_in_mode_10 : Descriptor.wf ⟨.m10, 0, 3, none, .none⟩ = false := by decide
theorem test_wf_byte_in_mode_11 : Descriptor.wf ⟨.m11, 0, 3, none, .disp8 0⟩ = false := by decide
theorem test_wf_word_in_mode_11 : Descriptor.wf ⟨.m11, 0, 3, none, .disp32 0⟩ = false := by decide
theorem test_wf_add_extension : (Instr.addRm32Imm8 ⟨.m11, 5, 0, none, .none⟩ 1).wf = false := by decide
theorem test_wf_sub_extension : (Instr.subRm32Imm8 ⟨.m11, 0, 0, none, .none⟩ 1).wf = false := by decide
theorem test_wf_inc_extension : (Instr.incRm32 ⟨.m11, 1, 0, none, .none⟩).wf = false := by decide

/-! ## Decoding: a word for every constructor, written out from the encodings of 30_encoding.md R61, R64, R79 -/

/-- The instruction a list of bytes decodes to, with nothing left over. -/
def decoded (bytes : List Byte) : Option Instr :=
  match decode bytes with
  | .ok (i, []) => some i
  | .ok (_, _ :: _) => none
  | .error _ => none

/-- 10111 011: MOV EBX, imm32; the bytes little-endian. -/
theorem test_decode_movR32Imm32 : decoded [0b10111011, 0x78, 0x56, 0x34, 0x12] = some (.movR32Imm32 .ebx 0x12345678) := by
  decide
/-- 11000111, ModRM 01 111 101: any reg value is MOV (D15); EBP - 4. -/
theorem test_decode_movRm32Imm32 : decoded [0b11000111, 0b01111101, 0xFC, 0x2A, 0, 0, 0] =
    some (.movRm32Imm32 ⟨.m01, 7, 5, none, .disp8 0xFC⟩ 0x2A) := by decide
/-- 10001001, ModRM 10 001 101: disp32. -/
theorem test_decode_movRm32R32 : decoded [0b10001001, 0b10001101, 0xF8, 0xFF, 0xFF, 0xFF] =
    some (.movRm32R32 ⟨.m10, 1, 5, none, .disp32 0xFFFFFFF8⟩) := by decide
/-- 10001011, ModRM 01 000 100, SIB 24, disp8 08. -/
theorem test_decode_movR32Rm32 : decoded [0b10001011, 0b01000100, 0x24, 0x08] =
    some (.movR32Rm32 ⟨.m01, 0, 4, some 0x24, .disp8 8⟩) := by decide
/-- 00000001, ModRM 11 000 001. -/
theorem test_decode_addRm32R32 : decoded [0b00000001, 0b11000001] = some (.addRm32R32 ⟨.m11, 0, 1, none, .none⟩) := by decide
/-- 10000011, ModRM 00 000 101: the absolute form, the immediate after the displacement. -/
theorem test_decode_addRm32Imm8 : decoded [0b10000011, 0b00000101, 0x00, 0x30, 0, 0, 0x80] =
    some (.addRm32Imm8 ⟨.m00, 0, 5, none, .disp32 0x3000⟩ 0x80) := by decide
/-- 10000011, ModRM 11 101 100: ESP. -/
theorem test_decode_subRm32Imm8 : decoded [0b10000011, 0b11101100, 8] = some (.subRm32Imm8 ⟨.m11, 5, 4, none, .none⟩ 8) := by
  decide
/-- 11111111, ModRM 00 000 110. -/
theorem test_decode_incRm32 : decoded [0b11111111, 0b00000110] = some (.incRm32 ⟨.m00, 0, 6, none, .none⟩) := by decide
/-- 01010 101. -/
theorem test_decode_pushR32 : decoded [0b01010101] = some (.pushR32 .ebp) := by decide
theorem test_decode_pushImm32 : decoded [0b01101000, 0, 1, 0, 0] = some (.pushImm32 0x100) := by decide
theorem test_decode_pushImm8 : decoded [0b01101010, 0xFF] = some (.pushImm8 0xFF) := by decide
/-- 01011 111. -/
theorem test_decode_popR32 : decoded [0b01011111] = some (.popR32 .edi) := by decide
theorem test_decode_leave : decoded [0b11001001] = some .leave := by decide
theorem test_decode_callRel32 : decoded [0b11101000, 5, 0, 0, 0] = some (.callRel32 5) := by decide
theorem test_decode_ret : decoded [0b11000011] = some .ret := by decide
theorem test_decode_jmpRel8 : decoded [0b11101011, 0xFE] = some (.jmpRel8 0xFE) := by decide
theorem test_decode_jmpRel32 : decoded [0b11101001, 0xEA, 0xFE, 0xFF, 0xFF] = some (.jmpRel32 0xFFFFFEEA) := by decide
/-- Part 2, length corner case: the longest instruction has 11 bytes. -/
theorem test_decode_longest : decoded [0xC7, 0x84, 0x24, 0, 1, 0, 0, 0x2A, 0, 0, 0] =
    some (.movRm32Imm32 ⟨.m10, 0, 4, some 0x24, .disp32 0x100⟩ 0x2A) := by decide
/-- The opcode table's rows: opcode in the low byte, or in the high byte of a two-byte row. -/
theorem test_table_word : decodeTableWord 8 0xC9 = some .leave ∧
    decodeTableWord 16 0x8328 = some (.subRm32Imm8 ⟨.m00, 5, 0, none, .none⟩ 0) ∧
    decodeTableWord 16 0xFF00 = some (.incRm32 ⟨.m00, 0, 0, none, .none⟩) ∧
    decodeTableWord 8 0x90 = none := by decide

/-! ## One step of each instruction -/

/-- The defaults of 95_test_vectors.md (MEM_SIZE 0x10000, ESP 0x8000, every other register 0), with the given bytes at `pc`. -/
def code (pc : Word) (bytes : List Byte) : State :=
  { State.reset with pc := pc, mem := Memory.writeBelow 0x10000 [] pc.toNat bytes }

/-- The given bytes at 0x1000. -/
def at1000 (bytes : List Byte) : State := code 0x1000 bytes

/-- A word placed in memory. -/
def put (s : State) (a : Nat) (v : Word) : State := { s with mem := Memory.writeWord s.mem a v }

/-- Part 4 row 1. -/
theorem test_movR32Imm32 : (stepState (at1000 [0xB8, 5, 0, 0, 0])).regs.eax = 5 ∧
    (stepState (at1000 [0xB8, 5, 0, 0, 0])).pc = 0x1005 := by decide
/-- Part 4: `B8 01 02` at 0xFFFD. -/
theorem test_movR32Imm32_cut : stepState (code 0xFFFD [0xB8, 1, 2]) =
    { code 0xFFFD [0xB8, 1, 2] with status := .faulted (.outOfRange 0x10000 0xFFFD) } := by decide
/-- Part 4: `C7 45 FC 2A 00 00 00`, EBP = 0x8000. -/
theorem test_movRm32Imm32 : Memory.readWord (stepState ((at1000 [0xC7, 0x45, 0xFC, 0x2A, 0, 0, 0]).setReg .ebp 0x8000)).mem 0x7FFC
    = 0x2A ∧ (stepState ((at1000 [0xC7, 0x45, 0xFC, 0x2A, 0, 0, 0]).setReg .ebp 0x8000)).pc = 0x1007 := by decide
/-- Part 4: a store that straddles the end of memory leaves its in-range bytes. -/
theorem test_movRm32Imm32_straddle :
    (stepState (at1000 [0xC7, 5, 0xFE, 0xFF, 0, 0, 0x78, 0x56, 0x34, 0x12])).status = .faulted (.outOfRange 0x10000 0x1000) ∧
    Memory.read (stepState (at1000 [0xC7, 5, 0xFE, 0xFF, 0, 0, 0x78, 0x56, 0x34, 0x12])).mem 0xFFFE = 0x78 ∧
    Memory.read (stepState (at1000 [0xC7, 5, 0xFE, 0xFF, 0, 0, 0x78, 0x56, 0x34, 0x12])).mem 0xFFFF = 0x56 := by decide
/-- Part 4: `89 E5`, the source is ESP and the destination EBP. -/
theorem test_movRm32R32 : (stepState (at1000 [0x89, 0xE5])).regs.ebp = 0x8000 ∧
    (stepState (at1000 [0x89, 0xE5])).pc = 0x1002 := by decide
/-- Part 4: `89 08` stores ECX, little-endian, at the address in EAX. -/
theorem test_movRm32R32_store : Memory.read (stepState (((at1000 [0x89, 8]).setReg .eax 0x2000).setReg .ecx 0x11223344)).mem 0x2000
    = 0x44 ∧ Memory.read (stepState (((at1000 [0x89, 8]).setReg .eax 0x2000).setReg .ecx 0x11223344)).mem 0x2003 = 0x11 := by
  decide
/-- Part 4: `8B 0D 00 20 00 00`. -/
theorem test_movR32Rm32 : (stepState (put (at1000 [0x8B, 0x0D, 0, 0x20, 0, 0]) 0x2000 0x12345678)).regs.ecx = 0x12345678 ∧
    (stepState (put (at1000 [0x8B, 0x0D, 0, 0x20, 0, 0]) 0x2000 0x12345678)).pc = 0x1006 := by decide
/-- Part 4: `8B 04 24`, the SIB escape. -/
theorem test_movR32Rm32_sib : (stepState (at1000 [0x8B, 4, 0x24])).status =
    .faulted (.unsupportedAddressingForm .m00 4 0x1000) := by decide
/-- Part 5: `01 C1`, EAX = 5, ECX = 0xFFFFFFFE. -/
theorem test_addRm32R32 : (stepState (((at1000 [1, 0xC1]).setReg .eax 5).setReg .ecx 0xFFFFFFFE)).regs.ecx = 3 ∧
    (stepState (((at1000 [1, 0xC1]).setReg .eax 5).setReg .ecx 0xFFFFFFFE)).regs.eax = 5 := by decide
/-- Part 5: `01 C0` wraps. -/
theorem test_addRm32R32_wraps : (stepState ((at1000 [1, 0xC0]).setReg .eax 0x80000000)).regs.eax = 0 := by decide
/-- Part 5: `83 C0 80` adds -128. -/
theorem test_addRm32Imm8 : (stepState (at1000 [0x83, 0xC0, 0x80])).regs.eax = 0xFFFFFF80 := by decide
/-- Part 5: `83 45 FC 01` on 0xFFFFFFFF. -/
theorem test_addRm32Imm8_memory : Memory.readWord (stepState (put ((at1000 [0x83, 0x45, 0xFC, 1]).setReg .ebp 0x8000) 0x7FFC
    0xFFFFFFFF)).mem 0x7FFC = 0 := by decide
/-- Part 5: `83 E8 07`. -/
theorem test_subRm32Imm8 : (stepState ((at1000 [0x83, 0xE8, 7]).setReg .eax 5)).regs.eax = 0xFFFFFFFE := by decide
/-- Part 5: `83 E8 80` subtracts -128. -/
theorem test_subRm32Imm8_sign : (stepState (at1000 [0x83, 0xE8, 0x80])).regs.eax = 0x80 := by decide
/-- Part 5: `FF C0` wraps. -/
theorem test_incRm32 : (stepState ((at1000 [0xFF, 0xC0]).setReg .eax 0xFFFFFFFF)).regs.eax = 0 := by decide
/-- Part 5: `FF C8`. -/
theorem test_incRm32_extension : (stepState (at1000 [0xFF, 0xC8])).status =
    .faulted (.unsupportedOpcodeExtension 0xFF 1 0x1000) := by decide
/-- Part 6: `54` pushes the old ESP. -/
theorem test_pushR32_esp : (stepState (at1000 [0x54])).regs.esp = 0x7FFC ∧
    Memory.readWord (stepState (at1000 [0x54])).mem 0x7FFC = 0x8000 := by decide
/-- Part 6: `50` with ESP = 0: ESP stays decremented. -/
theorem test_pushR32_fault : (stepState ((at1000 [0x50]).setReg .esp 0)).regs.esp = 0xFFFFFFFC ∧
    (stepState ((at1000 [0x50]).setReg .esp 0)).status = .faulted (.outOfRange 0xFFFFFFFC 0x1000) := by decide
/-- Part 6: `68 00 01 00 00`. -/
theorem test_pushImm32 : Memory.readWord (stepState (at1000 [0x68, 0, 1, 0, 0])).mem 0x7FFC = 0x100 ∧
    (stepState (at1000 [0x68, 0, 1, 0, 0])).pc = 0x1005 := by decide
/-- Part 6: `6A FF` zero-extends. -/
theorem test_pushImm8 : Memory.readWord (stepState (at1000 [0x6A, 0xFF])).mem 0x7FFC = 0xFF := by decide
/-- Part 6: `58`. -/
theorem test_popR32 : (stepState (put ((at1000 [0x58]).setReg .esp 0x7FFC) 0x7FFC 7)).regs.eax = 7 ∧
    (stepState (put ((at1000 [0x58]).setReg .esp 0x7FFC) 0x7FFC 7)).regs.esp = 0x8000 := by decide
/-- Part 6: `5C`. -/
theorem test_popR32_esp : (stepState (put (at1000 [0x5C]) 0x8000 0x11223344)).regs.esp = 0x11223344 := by decide
/-- Part 6: `C9`. -/
theorem test_leave : (stepState (put (((at1000 [0xC9]).setReg .ebp 0x7FFC).setReg .esp 0x7FF0) 0x7FFC 9)).regs.ebp = 9 ∧
    (stepState (put (((at1000 [0xC9]).setReg .ebp 0x7FFC).setReg .esp 0x7FF0) 0x7FFC 9)).regs.esp = 0x8000 := by decide
/-- Part 6: `C9` with EBP = 0xFFFE. -/
theorem test_leave_fault : (stepState ((at1000 [0xC9]).setReg .ebp 0xFFFE)).regs.esp = 0xFFFE ∧
    (stepState ((at1000 [0xC9]).setReg .ebp 0xFFFE)).status = .faulted (.outOfRange 0x10000 0x1000) := by decide
/-- Part 7: `E8 05 00 00 00` at 0x1007. -/
theorem test_callRel32 : (stepState ((code 0x1007 [0xE8, 5, 0, 0, 0]).setReg .esp 0x7FF8)).pc = 0x1011 ∧
    Memory.readWord (stepState ((code 0x1007 [0xE8, 5, 0, 0, 0]).setReg .esp 0x7FF8)).mem 0x7FF4 = 0x100C := by decide
/-- Part 7: `E8 FB EF FF FF` reaches the sentinel. -/
theorem test_callRel32_halts : (stepState (at1000 [0xE8, 0xFB, 0xEF, 0xFF, 0xFF])).status = .halted := by decide
/-- Part 7: `C3`. -/
theorem test_ret : (stepState (put ((at1000 [0xC3]).setReg .esp 0x7FF4) 0x7FF4 0x100C)).pc = 0x100C ∧
    (stepState (put ((at1000 [0xC3]).setReg .esp 0x7FF4) 0x7FF4 0x100C)).regs.esp = 0x7FF8 := by decide
/-- Part 7: `EB 80`. -/
theorem test_jmpRel8 : (stepState (at1000 [0xEB, 0x80])).pc = 0xF82 := by decide
/-- Part 7: `EB 10` at 0xFFFFFFF0 with MEM_SIZE = 2^32 wraps and stays Running. -/
theorem test_jmpRel8_wraps :
    (stepState { code 0xFFFFFFF0 [] with memSize := 2 ^ 32, mem := [(0xFFFFFFF0, 0xEB), (0xFFFFFFF1, 0x10)] }).pc = 2 := by decide
/-- Part 7: `E9 EA FE FF FF` at 0x111. -/
theorem test_jmpRel32_halts : (stepState (code 0x111 [0xE9, 0xEA, 0xFE, 0xFF, 0xFF])).pc = 0 ∧
    (stepState (code 0x111 [0xE9, 0xEA, 0xFE, 0xFF, 0xFF])).status = .halted := by decide
/-- Part 8: `90`. -/
theorem test_absent_opcode : stepState (at1000 [0x90]) =
    { at1000 [0x90] with status := .faulted (.unsupportedOpcode 0x90 0x1000) } := by decide
/-- Part 8: `83 F8` at 0xFFFE: the extension fault comes before the immediate fetch. -/
theorem test_extension_before_immediate : (stepState (code 0xFFFE [0x83, 0xF8])).status =
    .faulted (.unsupportedOpcodeExtension 0x83 7 0xFFFE) := by decide
/-- Part 9: the last immediate byte past 2^32 does not wrap to address 0 (D7). -/
theorem test_fetch_does_not_wrap :
    (stepState { code 0xFFFFFFFC [] with memSize := 2 ^ 32, mem := [(0xFFFFFFFC, 0xB8), (0xFFFFFFFD, 5)] }).status =
      .faulted (.outOfRange 0x100000000 0xFFFFFFFC) := by decide
/-- Part 10: a load that does not fit is refused. -/
theorem test_load : (load 0xFFFE [1, 2] State.reset).isSome = true ∧ load 0xFFFE [1, 2, 3] State.reset = none := by decide
/-- The first step after reset runs the word placed by `withFetchWord`. -/
theorem test_withFetchWord : (stepState (State.reset.withFetchWord 8 0x54)).regs.esp = 0x7FFC ∧
    (stepState (State.reset.withFetchWord 16 0xFF00)).pc = 0x1002 := by decide

/-! ## Witnesses: states and operands that meet the hypotheses of each statement -/

/-- The absolute form at an address. -/
def absolute (a : Word) : Descriptor := ⟨.m00, 0, 5, none, .disp32 a⟩
/-- The register form, EAX. -/
def direct : Descriptor := ⟨.m11, 0, 0, none, .none⟩
/-- A SIB form. -/
def sibForm : Descriptor := ⟨.m01, 0, 4, some 0x24, .disp8 0x10⟩

theorem witness_WordStoreThenLoadReturnsTheWord : Memory.wf State.reset.mem ∧ 0xFFFC + 3 < State.reset.memSize := by decide
theorem witness_StraddlingStoreKeepsItsInRangeBytes : Memory.wf State.reset.mem ∧ State.reset.memSize ≤ 0xFFFD + 3 := by decide
theorem witness_PopUndoesPush :
    (State.reset.setReg .esp 0xFFFC).regs.esp.toNat + 3 < State.reset.memSize ∧
    State.reset.memSize ≤ (State.reset.setReg .esp 0xFFFD).regs.esp.toNat + 3 ∧ Memory.wf State.reset.mem ∧
    ((State.reset.setReg .esp 0x10000).regs.esp - 4).toNat + 3 < State.reset.memSize := by decide
theorem witness_DecodeOfEncodeIsTheInstruction :
    (Instr.movRm32Imm32 ⟨.m10, 7, 4, some 0xFF, .disp32 0xFFFFFFFF⟩ 0x80000000).wf = true := by decide
theorem witness_EncodeOfDecodeIsTheBytes : decode [0x83, 0x45, 0xFC, 1, 0x90] =
    .ok (.addRm32Imm8 ⟨.m01, 0, 5, none, .disp8 0xFC⟩ 1, [0x90]) := rfl
theorem witness_EncodingLengthIsTheTables : (Instr.incRm32 sibForm).wf = true := by decide
/-- A row of each kind: OP, the two faulting group extensions `83 F8` and `FF C8` (R80, R84), the longest form (C7 with mode 10
and rm 100b, R84), and the absent 0x90. -/
theorem test_encodingLength :
    encodingLength 0x5C 0 = some 1 ∧ encodingLength 0x83 0xF8 = some 3 ∧ encodingLength 0xFF 0xC8 = some 2 ∧
    encodingLength 0xC7 0x84 = some 11 ∧ encodingLength 0x90 0 = none := by decide
/-- A value for every clause: the first and last opcode of each range, the other opcodes each, and bytes that decode with and
without a byte after the opcode. -/
theorem witness_OpcodeAndModRMTellTheLength :
    absentOpcode (0xFE : Byte).toNat ∧ ¬ absentOpcode (0xFF : Byte).toNat ∧
    (0x50 ≤ (0x50 : Byte).toNat ∧ (0x5F : Byte).toNat ≤ 0x5F) ∧ (0xB8 ≤ (0xB8 : Byte).toNat ∧ (0xBF : Byte).toNat ≤ 0xBF) ∧
    encodingLength 0xFF 0xC7 = some 2 ∧
    (([] : List Byte).head? = none ∧ decode (0xC9 :: []) = .ok (.leave, [])) ∧
    (([0xC1, 0x90] : List Byte).head? = some 0xC1 ∧
      decode (0x01 :: [0xC1, 0x90]) = .ok (.addRm32R32 ⟨.m11, 0, 1, none, .none⟩, [0x90])) := by
  refine ⟨by unfold absentOpcode; decide, by unfold absentOpcode; decide, by decide, by decide, by decide, ⟨rfl, rfl⟩, rfl, rfl⟩
theorem witness_ModRMByteFieldsAreExtracted :
    decodeModRM (0xC5 :: [1]) = .ok (⟨.m11, 0, 5, none, .none⟩, [1]) ∧ 5 ≤ ([1, 2, 3, 4, 5] : List Byte).length :=
  ⟨rfl, by decide⟩
/-- With and without a SIB byte, and each displacement clause. -/
theorem witness_DisplacementIsReadByModeAndRm :
    (if Mode.m10 ≠ .m11 ∧ (4 : BitVec 3) = 4 then ([0x24] : List Byte).length = 1 else ([0x24] : List Byte) = []) ∧
    (if Mode.m00 ≠ .m11 ∧ (5 : BitVec 3) = 4 then ([] : List Byte).length = 1 else ([] : List Byte) = []) ∧
    ((Mode.m00 = .m00 ∧ (5 : BitVec 3) = 5) ∨ Mode.m00 = .m10) ∧ Mode.m01 = .m01 ∧
    ((Mode.m00 = .m00 ∧ (4 : BitVec 3) ≠ 5) ∨ Mode.m00 = .m11) := by decide
theorem witness_DescriptorDependsOnItsRegionAlone :
    decodeModRM [0x84, 0x24, 0, 1, 0, 0, 7] = .ok (⟨.m10, 0, 4, some 0x24, .disp32 0x100⟩, [7]) := rfl
/-- A state that holds LEAVE at the last byte below the capacity. -/
theorem witness_StepRunsTheDecodedInstruction : Instr.leave.wf = true ∧ (code 0xFFFF [0xC9]).Holds .leave :=
  ⟨rfl, by decide, by decide, by decide⟩
theorem witness_StepAtOrAboveCapacityFaults :
    (code 0x10000 []).status = .running ∧ (code 0x10000 []).memSize ≤ (code 0x10000 []).pc.toNat := by decide
/-- `B8 01 02` ends at the capacity. -/
theorem cutShort_mov : (code 0xFFFD [0xB8, 1, 2]).CutShort (.movR32Imm32 .eax 0x201) :=
  ⟨by decide, 3, by decide, by decide, by decide⟩
theorem witness_InstructionCutShortFaults :
    (Instr.movR32Imm32 .eax 0x201).wf = true ∧ (code 0xFFFD [0xB8, 1, 2]).CutShort (.movR32Imm32 .eax 0x201) :=
  ⟨rfl, cutShort_mov⟩
theorem witness_AbsentOpcodeStopsWithStateUnchanged :
    (code 0xFFFF [0xFE]).status = .running ∧ (code 0xFFFF [0xFE]).pc.toNat < (code 0xFFFF [0xFE]).memSize ∧
    absentOpcode (Memory.read (code 0xFFFF [0xFE]).mem (code 0xFFFF [0xFE]).pc.toNat).toNat := by
  unfold absentOpcode; decide
/-- `83 F8` and `FF C8` in the last two bytes below the capacity. -/
theorem witness_UnsupportedExtensionStopsWithStateUnchanged :
    Descriptor.wf ⟨.m11, 7, 0, none, .none⟩ = true ∧
    (code 0xFFFE [0x83, 0xF8]).pc.toNat + 1 + (encodeModRM ⟨.m11, 7, 0, none, .none⟩).length ≤ (code 0xFFFE [0x83, 0xF8]).memSize ∧
    (∀ k (h : k < (encodeModRM ⟨.m11, 7, 0, none, .none⟩).length),
      Memory.read (code 0xFFFE [0x83, 0xF8]).mem ((code 0xFFFE [0x83, 0xF8]).pc.toNat + 1 + k) =
        (encodeModRM ⟨.m11, 7, 0, none, .none⟩)[k]) ∧
    Memory.read (code 0xFFFE [0x83, 0xF8]).mem (code 0xFFFE [0x83, 0xF8]).pc.toNat = 0x83 ∧
    Memory.read (code 0xFFFE [0xFF, 0xF8]).mem (code 0xFFFE [0xFF, 0xF8]).pc.toNat = 0xFF := by decide
/-- A descriptor for each clause: SIB, absolute, base, base and byte, base and word, register. -/
theorem witness_EffectiveAddressByMode : (sibForm.mode ≠ .m11 ∧ sibForm.rm = 4) ∧
    ((absolute 0xFFFFFFFF).mode = .m00 ∧ (absolute 0xFFFFFFFF).rm = 5 ∧ (absolute 0xFFFFFFFF).disp = .disp32 0xFFFFFFFF) ∧
    (let d : Descriptor := ⟨.m00, 0, 6, none, .none⟩; d.mode = .m00 ∧ d.rm ≠ 4 ∧ d.rm ≠ 5) ∧
    (let d : Descriptor := ⟨.m01, 0, 5, none, .disp8 0x80⟩; d.mode = .m01 ∧ d.rm ≠ 4 ∧ d.disp = .disp8 0x80) ∧
    (let d : Descriptor := ⟨.m10, 0, 5, none, .disp32 8⟩; d.mode = .m10 ∧ d.rm ≠ 4 ∧ d.disp = .disp32 8) ∧
    direct.mode = .m11 := by decide
theorem witness_RmOperandByMode : direct.mode = .m11 ∧
    ((absolute 4).mode ≠ .m11 ∧ effectiveAddress (absolute 4) State.reset = .ok 4) ∧
    (sibForm.mode ≠ .m11 ∧ effectiveAddress sibForm State.reset =
      .error ⟨.unsupportedAddressingForm .m01 4 0x1000, State.reset⟩) :=
  ⟨rfl, ⟨by decide, rfl⟩, by decide, rfl⟩
theorem witness_SibEscapeStopsEveryRmInstruction :
    (Instr.incRm32 sibForm).descriptor = some sibForm ∧ sibForm.mode ≠ .m11 ∧ sibForm.rm = 4 := by decide
theorem witness_NoInstructionAddressesModeEleven :
    State.reset.status = .running ∧ ∃ t, exec (.incRm32 sibForm) State.reset = .next t := ⟨rfl, _, rfl⟩
theorem witness_MovRegisterImmediate : (code 0xFFFD [0xB8, 1, 2]).CutShort (.movR32Imm32 .eax 0x201) := cutShort_mov

/-- The hypotheses of the r/m statements: the register form, the last address a word fits at, the first it does not. -/
theorem rm_clauses_met : direct.mode = .m11 ∧
    (effectiveAddress (absolute 0xFFFC) State.reset = .ok 0xFFFC ∧ (0xFFFC : Word).toNat + 3 < State.reset.memSize) ∧
    (effectiveAddress (absolute 0xFFFD) State.reset = .ok 0xFFFD ∧ State.reset.memSize ≤ (0xFFFD : Word).toNat + 3) :=
  ⟨rfl, ⟨rfl, by decide⟩, rfl, by decide⟩
theorem witness_MovRmImmediate : direct.mode = .m11 ∧
    (effectiveAddress (absolute 0xFFFC) State.reset = .ok 0xFFFC ∧ (0xFFFC : Word).toNat + 3 < State.reset.memSize) ∧
    (effectiveAddress (absolute 0xFFFD) State.reset = .ok 0xFFFD ∧ State.reset.memSize ≤ (0xFFFD : Word).toNat + 3) :=
  rm_clauses_met
theorem witness_MovRmRegister : direct.mode = .m11 ∧
    (effectiveAddress (absolute 0xFFFC) State.reset = .ok 0xFFFC ∧ (0xFFFC : Word).toNat + 3 < State.reset.memSize) ∧
    (effectiveAddress (absolute 0xFFFD) State.reset = .ok 0xFFFD ∧ State.reset.memSize ≤ (0xFFFD : Word).toNat + 3) :=
  rm_clauses_met
/-- Beside the r/m clauses: a SIB form, and `8B` as the last byte below the capacity. -/
theorem witness_MovRegisterRm : direct.mode = .m11 ∧
    (effectiveAddress (absolute 0xFFFC) State.reset = .ok 0xFFFC ∧ (0xFFFC : Word).toNat + 3 < State.reset.memSize) ∧
    (effectiveAddress (absolute 0xFFFD) State.reset = .ok 0xFFFD ∧ State.reset.memSize ≤ (0xFFFD : Word).toNat + 3) ∧
    (sibForm.mode ≠ .m11 ∧ sibForm.rm = 4) ∧ direct.wf = true ∧ (code 0xFFFF [0x8B]).CutShort (.movR32Rm32 direct) :=
  ⟨rfl, rm_clauses_met.2.1, rm_clauses_met.2.2, by decide, rfl, by decide, 1, by decide, by decide, by decide⟩
theorem witness_AddRmRegister : direct.mode = .m11 ∧
    (effectiveAddress (absolute 0xFFFC) State.reset = .ok 0xFFFC ∧ (0xFFFC : Word).toNat + 3 < State.reset.memSize) ∧
    (effectiveAddress (absolute 0xFFFD) State.reset = .ok 0xFFFD ∧ State.reset.memSize ≤ (0xFFFD : Word).toNat + 3) :=
  rm_clauses_met
theorem witness_AddRmImmediate : direct.mode = .m11 ∧
    (effectiveAddress (absolute 0xFFFC) State.reset = .ok 0xFFFC ∧ (0xFFFC : Word).toNat + 3 < State.reset.memSize) ∧
    (effectiveAddress (absolute 0xFFFD) State.reset = .ok 0xFFFD ∧ State.reset.memSize ≤ (0xFFFD : Word).toNat + 3) :=
  rm_clauses_met
theorem witness_SubRmImmediate : direct.mode = .m11 ∧
    (effectiveAddress (absolute 0xFFFC) State.reset = .ok 0xFFFC ∧ (0xFFFC : Word).toNat + 3 < State.reset.memSize) ∧
    (effectiveAddress (absolute 0xFFFD) State.reset = .ok 0xFFFD ∧ State.reset.memSize ≤ (0xFFFD : Word).toNat + 3) :=
  rm_clauses_met
/-- Beside the r/m clauses: a SIB form, and `FF` as the last byte below the capacity. -/
theorem witness_IncRm : direct.mode = .m11 ∧
    (effectiveAddress (absolute 0xFFFC) State.reset = .ok 0xFFFC ∧ (0xFFFC : Word).toNat + 3 < State.reset.memSize) ∧
    (effectiveAddress (absolute 0xFFFD) State.reset = .ok 0xFFFD ∧ State.reset.memSize ≤ (0xFFFD : Word).toNat + 3) ∧
    (sibForm.mode ≠ .m11 ∧ sibForm.rm = 4) ∧ direct.wf = true ∧ direct.reg = 0 ∧
    (code 0xFFFF [0xFF]).CutShort (.incRm32 direct) :=
  ⟨rfl, rm_clauses_met.2.1, rm_clauses_met.2.2, by decide, rfl, rfl, by decide, 1, by decide, by decide, by decide⟩

/-- The hypotheses of the push statements: the highest ESP a push fits below, and the first it does not. -/
theorem push_clauses_met :
    ((State.reset.setReg .esp 0x10000).getReg .esp - 4).toNat + 3 < State.reset.memSize ∧
    State.reset.memSize ≤ ((State.reset.setReg .esp 0x10001).getReg .esp - 4).toNat + 3 := by decide
theorem witness_PushRegister : ((State.reset.setReg .esp 0x10000).getReg .esp - 4).toNat + 3 < State.reset.memSize ∧
    State.reset.memSize ≤ ((State.reset.setReg .esp 0x10001).getReg .esp - 4).toNat + 3 := push_clauses_met
theorem witness_PushImmediateWord : ((State.reset.setReg .esp 0x10000).getReg .esp - 4).toNat + 3 < State.reset.memSize ∧
    State.reset.memSize ≤ ((State.reset.setReg .esp 0x10001).getReg .esp - 4).toNat + 3 := push_clauses_met
theorem witness_PushImmediateByteZeroExtends :
    ((State.reset.setReg .esp 0x10000).getReg .esp - 4).toNat + 3 < State.reset.memSize ∧
    State.reset.memSize ≤ ((State.reset.setReg .esp 0x10001).getReg .esp - 4).toNat + 3 := push_clauses_met
theorem witness_CallPushesTheReturnAddress :
    ((State.reset.setReg .esp 0x10000).getReg .esp - 4).toNat + 3 < State.reset.memSize ∧
    State.reset.memSize ≤ ((State.reset.setReg .esp 0x10001).getReg .esp - 4).toNat + 3 := push_clauses_met
theorem witness_PopRegister : ((State.reset.setReg .esp 0xFFFC).getReg .esp).toNat + 3 < State.reset.memSize ∧
    State.reset.memSize ≤ ((State.reset.setReg .esp 0xFFFD).getReg .esp).toNat + 3 := by decide
theorem witness_LeaveRestoresTheFrame : ((State.reset.setReg .ebp 0xFFFC).getReg .ebp).toNat + 3 < State.reset.memSize ∧
    State.reset.memSize ≤ ((State.reset.setReg .ebp 0xFFFD).getReg .ebp).toNat + 3 := by decide
/-- Both range clauses, and a state that holds RET over a zero word. -/
theorem witness_RetPopsThePc : ((State.reset.setReg .esp 0xFFFC).getReg .esp).toNat + 3 < State.reset.memSize ∧
    State.reset.memSize ≤ ((State.reset.setReg .esp 0xFFFD).getReg .esp).toNat + 3 ∧ (at1000 [0xC3]).Holds .ret ∧
    ((at1000 [0xC3]).getReg .esp).toNat + 3 < (at1000 [0xC3]).memSize ∧
    Memory.readWord (at1000 [0xC3]).mem ((at1000 [0xC3]).getReg .esp).toNat = 0 :=
  ⟨by decide, by decide, ⟨by decide, by decide, by decide⟩, by decide, by decide⟩
theorem witness_ShortJump : (code 0xFFFF [0xEB]).CutShort (.jmpRel8 0) :=
  ⟨by decide, 1, by decide, by decide, by decide⟩
theorem witness_NearJump : (code 0xFFFF [0xE9]).CutShort (.jmpRel32 0) ∧
    (code 0x111 [0xE9, 0xEA, 0xFE, 0xFF, 0xFF]).Holds (.jmpRel32 0xFFFFFEEA) ∧
    (0xFFFFFEEA : Word) = 0 - ((code 0x111 [0xE9, 0xEA, 0xFE, 0xFF, 0xFF]).pc + 5) :=
  ⟨⟨by decide, 1, by decide, by decide, by decide⟩, ⟨by decide, by decide, by decide⟩, by decide⟩
theorem witness_RetReturnsAfterTheCall :
    Memory.wf State.reset.mem ∧ (State.reset.getReg .esp - 4).toNat + 3 < State.reset.memSize := by decide
theorem witness_RegisterDestinationFrame : registerDestination (.addRm32R32 direct) = some .eax ∧
    ∃ t, exec (.addRm32R32 direct) State.reset = .next t := ⟨rfl, _, rfl⟩
/-- With an effective address and, in a SIB form, without one. -/
theorem witness_MemoryDestinationFrame :
    (memoryDestination (.incRm32 (absolute 0)) = some (absolute 0) ∧ (absolute 0).mode ≠ .m11 ∧
      (∃ t, exec (.incRm32 (absolute 0)) State.reset = .next t) ∧ effectiveAddress (absolute 0) State.reset = .ok 0) ∧
    (memoryDestination (.incRm32 sibForm) = some sibForm ∧ sibForm.mode ≠ .m11 ∧
      (∃ t, exec (.incRm32 sibForm) State.reset = .next t) ∧ ∀ a, effectiveAddress sibForm State.reset ≠ .ok a) :=
  ⟨⟨rfl, by decide, ⟨_, rfl⟩, rfl⟩, rfl, by decide, ⟨_, rfl⟩, fun a h => nomatch h⟩
theorem witness_PushFrame : pushes (.pushR32 .esp) ∧ ∃ t, exec (.pushR32 .esp) State.reset = .next t :=
  ⟨.inl ⟨_, rfl⟩, _, rfl⟩
theorem witness_PopFrame : popChanges (.popR32 .esp) = some [.esp, .esp] ∧ ∃ t, exec (.popR32 .esp) State.reset = .next t :=
  ⟨rfl, _, rfl⟩
theorem witness_JumpFrame : ((∃ rel, Instr.jmpRel8 0x80 = .jmpRel8 rel) ∨ ∃ rel, Instr.jmpRel8 0x80 = .jmpRel32 rel) ∧
    ∃ t, exec (.jmpRel8 0x80) State.reset = .next t := ⟨.inl ⟨_, rfl⟩, _, rfl⟩
theorem witness_FinalStatesNeverChange : (stepState (at1000 [0x90])).status ≠ .running ∧
    (stepState (at1000 [0xC3])).status ≠ .running := by decide
theorem witness_FlagsAndCapacityNeverChange : ∃ t, step (at1000 [0x55]) = .next t := ⟨_, rfl⟩
theorem witness_FlagsAreNeverConsumed : ∃ t, step (at1000 [0x55]) = .next t := ⟨_, rfl⟩
theorem witness_HaltsExactlyAtTheSentinel : (at1000 [0xC3]).status = .running ∧ ∃ t, step (at1000 [0xC3]) = .next t :=
  ⟨rfl, _, rfl⟩
theorem witness_OtherFaultsLeaveTheStateUnchanged : (at1000 [0x90]).status = .running ∧
    ∃ t, step (at1000 [0x90]) = .next t ∧ t.status = .faulted (.unsupportedOpcode 0x90 0x1000) ∧
      ∀ a p, Fault.unsupportedOpcode 0x90 0x1000 ≠ .outOfRange a p := ⟨rfl, _, rfl, rfl, fun _ _ h => nomatch h⟩
theorem witness_OutOfRangeLeavesOnlyTheNamedEffects : (State.reset.setReg .esp 0).status = .running ∧
    ∃ t, exec (.pushR32 .eax) (State.reset.setReg .esp 0) = .next t ∧
      t.status = .faulted (.outOfRange 0xFFFFFFFC 0x1000) := ⟨rfl, _, rfl, rfl⟩
theorem witness_StepKeepsTheInvariant : State.reset.Inv ∧ ∃ t, step State.reset = .next t :=
  ⟨⟨by decide, by decide, by decide, by decide, trivial⟩, _, rfl⟩
/-- P4's shape: `C7 05 0A 10 00 00 C3 ..` at 0x1000 writes a RET at 0x100A. -/
theorem witness_StoredCodeIsFetchedNext :
    let s := at1000 [0xC7, 0x05, 0x0A, 0x10, 0, 0, 0xC3, 0, 0, 0]
    Memory.wf s.mem ∧ s.Holds (.movRm32Imm32 ⟨.m00, 0, 5, none, .disp32 (s.pc + 10)⟩ 0xC3) ∧ Instr.ret.wf = true ∧
      encode .ret = [(0xC3 : Word).extractLsb' 0 8] ∧ s.pc.toNat + 13 < s.memSize ∧ s.memSize ≤ 2 ^ 32 :=
  ⟨by decide, ⟨by decide, by decide, by decide⟩, by decide, by decide, by decide, by decide⟩
theorem witness_JumpToSelfNeverEnds :
    ((at1000 [0xEB, 0xFE]).Holds (.jmpRel8 0xFE) ∨ (at1000 [0xEB, 0xFE]).Holds (.jmpRel32 0xFFFFFFFB)) ∧
    (at1000 [0xEB, 0xFE]).pc ≠ 0 := ⟨.inl ⟨by decide, by decide, by decide⟩, by decide⟩
theorem witness_ConstructorBuildsTheResetState : Memory.wf [(0, 1), (0xFFFFFFFF, 2)] ∧ 1 ≤ 2 ^ 32 ∧ 2 ^ 32 ≤ 2 ^ 32 := by decide
theorem witness_LoadIsWholeOrRefused : Memory.wf State.reset.mem ∧
    0xFFFE + ([1, 2] : List Byte).length ≤ State.reset.memSize ∧ State.reset.memSize < 0xFFFE + ([1, 2, 3] : List Byte).length ∧
    ((Session.construct 0x10000 0 0 []).serve .step).2.begun = true := by decide

end Sys2Proof.Tests
end

section
/-! How many bytes the decoder can ask for.  An instruction has at most eleven bytes (R84), so a decoder that is given eleven
never misses one: a missing byte means that the end of memory cut the fetch window short (R42, R70, R183). -/

namespace Sys2Proof

/-- A decoding of `bytes` that asks for `n` bytes at most: what it takes from the front is no longer, and it misses a byte only
where there are fewer. -/
def TakesAtMost {α : Type} (n : Nat) (bytes : List Byte) : Except DecodeError (α × List Byte) → Prop
  | .ok (_, rest) => bytes.length ≤ n + rest.length
  | .error e => e = .missing → bytes.length < n

theorem TakesAtMost.mono {α : Type} {n m : Nat} {bytes : List Byte} {x : Except DecodeError (α × List Byte)}
    (hx : TakesAtMost n bytes x) (h : n ≤ m) : TakesAtMost m bytes x := by
  cases x with
  | ok p => exact Nat.le_trans hx (Nat.add_le_add_right h _)
  | error e => exact fun he => Nat.lt_of_lt_of_le (hx he) h

/-- One part of the decoder after another: their bytes add up. -/
theorem TakesAtMost.bind {α β : Type} {n m : Nat} {bytes : List Byte} {x : Except DecodeError (α × List Byte)}
    {f : α × List Byte → Except DecodeError (β × List Byte)} (hx : TakesAtMost n bytes x)
    (hf : ∀ a rest, TakesAtMost m rest (f (a, rest))) : TakesAtMost (n + m) bytes (x >>= f) := by
  cases x with
  | error e => exact hx |>.mono (Nat.le_add_right n m)
  | ok p =>
    obtain ⟨a, rest⟩ := p
    have front : bytes.length ≤ n + rest.length := hx
    have later := hf a rest
    change TakesAtMost (n + m) bytes (f (a, rest))
    cases hy : f (a, rest) with
    | ok q =>
      rw [hy] at later
      have : rest.length ≤ m + q.2.length := later
      show bytes.length ≤ n + m + q.2.length
      omega
    | error e =>
      rw [hy] at later
      intro he
      have := later he
      omega

/-- The byte that was matched before a decoding goes on counts as one more. -/
theorem TakesAtMost.cons {α : Type} {n : Nat} {rest : List Byte} {x : Except DecodeError (α × List Byte)}
    (hx : TakesAtMost n rest x) (b : Byte) : TakesAtMost (n + 1) (b :: rest) x := by
  cases x with
  | ok p =>
    have : rest.length ≤ n + p.2.length := hx
    show (b :: rest).length ≤ n + 1 + p.2.length
    simp only [List.length_cons]
    omega
  | error e => exact fun he => Nat.succ_lt_succ (hx he)

/-- A part that takes nothing and succeeds. -/
theorem takesAtMost_pure {α : Type} (n : Nat) (a : α) (rest : List Byte) :
    TakesAtMost n rest (.ok (a, rest)) := Nat.le_add_left _ n

theorem takeByte_takesAtMost (bytes : List Byte) : TakesAtMost 1 bytes (takeByte bytes) := by
  cases h : takeByte bytes with
  | ok p => simp [TakesAtMost, takeByte_ok (rest := p.2) h, Nat.add_comm]
  | error e => exact fun _ => by simp [(takeByte_error.1 h).2]

theorem takeWord_takesAtMost (bytes : List Byte) : TakesAtMost 4 bytes (takeWord bytes) := by
  cases h : takeWord bytes with
  | ok p =>
    show bytes.length ≤ 4 + p.2.length
    simp only [takeWord_ok (rest := p.2) h, List.length_append, wordBytes, List.length_cons, List.length_nil]
    omega
  | error e => exact fun _ => (takeWord_error.1 h).2

theorem takeSib_takesAtMost (mode : Mode) (rm : BitVec 3) (bytes : List Byte) :
    TakesAtMost 1 bytes (takeSib mode rm bytes) := by
  unfold takeSib
  split
  · exact (takeByte_takesAtMost bytes).bind (m := 0) fun b rest => takesAtMost_pure 0 (some b) rest
  · exact takesAtMost_pure 1 none bytes

theorem takeDisp_takesAtMost (mode : Mode) (rm : BitVec 3) (bytes : List Byte) :
    TakesAtMost 4 bytes (takeDisp mode rm bytes) := by
  unfold takeDisp
  split
  · exact (takeWord_takesAtMost bytes).bind (m := 0) fun v rest => takesAtMost_pure 0 (Disp.disp32 v) rest
  · split
    · exact (takeByte_takesAtMost bytes).bind (m := 3) fun b rest => takesAtMost_pure 3 (Disp.disp8 b) rest
    · exact takesAtMost_pure 4 Disp.none bytes

/-- The ModRM region: the ModRM byte, a SIB byte and a displacement (R68). -/
theorem decodeModRM_takesAtMost (bytes : List Byte) : TakesAtMost 6 bytes (decodeModRM bytes) :=
  (takeByte_takesAtMost bytes).bind (m := 5) fun _ rest =>
    (takeSib_takesAtMost _ _ rest).bind (m := 4) fun _ rest =>
      (takeDisp_takesAtMost _ _ rest).bind (m := 0) fun _ rest => takesAtMost_pure 0 _ rest

/-- After the opcode: a ModRM region and four bytes of immediate (R84). -/
theorem decodeOperands_takesAtMost (opcode : Byte) (h : Handler) (bytes : List Byte) :
    TakesAtMost 10 bytes (decodeOperands opcode h bytes) := by
  have region {f : Descriptor × List Byte → Except DecodeError (Instr × List Byte)}
      (hf : ∀ d rest, TakesAtMost 4 rest (f (d, rest))) : TakesAtMost 10 bytes (decodeModRM bytes >>= f) :=
    (decodeModRM_takesAtMost bytes).bind hf
  have word {f : Word → Instr} {bytes : List Byte} :
      TakesAtMost 4 bytes (takeWord bytes >>= fun p => .ok (f p.1, p.2)) :=
    (takeWord_takesAtMost bytes).bind (m := 0) fun v rest => takesAtMost_pure 0 (f v) rest
  have byte {f : Byte → Instr} {bytes : List Byte} :
      TakesAtMost 4 bytes (takeByte bytes >>= fun p => .ok (f p.1, p.2)) :=
    (takeByte_takesAtMost bytes).bind (m := 3) fun b rest => takesAtMost_pure 3 (f b) rest
  cases h with
  | addRm32R32 => exact region fun d rest => takesAtMost_pure 4 (Instr.addRm32R32 d) rest
  | movRm32R32 => exact region fun d rest => takesAtMost_pure 4 (Instr.movRm32R32 d) rest
  | movR32Rm32 => exact region fun d rest => takesAtMost_pure 4 (Instr.movR32Rm32 d) rest
  | movRm32Imm32 => exact region fun d rest => word (f := .movRm32Imm32 d)
  | group83 =>
    refine region fun d rest => ?_
    dsimp only
    split
    · exact byte (f := .addRm32Imm8 d)
    · split
      · exact byte (f := .subRm32Imm8 d)
      · exact fun he => nomatch he
  | groupFF =>
    refine region fun d rest => ?_
    dsimp only
    split
    · exact takesAtMost_pure 4 (Instr.incRm32 d) rest
    · exact fun he => nomatch he
  | pushR32 => exact takesAtMost_pure 10 (Instr.pushR32 (opcodeReg opcode)) bytes
  | popR32 => exact takesAtMost_pure 10 (Instr.popR32 (opcodeReg opcode)) bytes
  | ret => exact takesAtMost_pure 10 Instr.ret bytes
  | leave => exact takesAtMost_pure 10 Instr.leave bytes
  | pushImm32 => exact (word (f := .pushImm32)).mono (by decide)
  | movR32Imm32 => exact (word (f := .movR32Imm32 (opcodeReg opcode))).mono (by decide)
  | callRel32 => exact (word (f := .callRel32)).mono (by decide)
  | nearJump => exact (word (f := .jmpRel32)).mono (by decide)
  | pushImm8 => exact (byte (f := .pushImm8)).mono (by decide)
  | shortJump => exact (byte (f := .jmpRel8)).mono (by decide)

/-- An instruction has at most eleven bytes (R84). -/
theorem decode_takesAtMost (bytes : List Byte) : TakesAtMost maxLength bytes (decode bytes) := by
  cases bytes with
  | nil => exact fun _ => by decide
  | cons opcode rest =>
    simp only [decode]
    split
    · exact fun he => nomatch he
    · exact (decodeOperands_takesAtMost opcode _ rest).cons opcode

/-- The decoder misses a byte only where there are fewer than eleven (R70, R84). -/
theorem length_lt_of_decode_missing {bytes : List Byte} (h : decode bytes = .error .missing) :
    bytes.length < maxLength := by
  have := decode_takesAtMost bytes
  rw [h] at this
  exact this rfl

/-- The group opcodes are 0xFF and 0x83 (R79, R80). -/
theorem opcode_of_dispatch_groupFF {opcode : Byte} (h : dispatch opcode = some .groupFF) : opcode = 0xFF := by
  revert opcode; decide

theorem opcode_of_dispatch_group83 {opcode : Byte} (h : dispatch opcode = some .group83) : opcode = 0x83 := by
  revert opcode; decide

end Sys2Proof
end

section
/-! What an instruction's rule can do, said once: register writes and byte writes below the capacity, then a new pc; or a fault
that fits the state the instruction started in (R12, R186 to R189). -/

namespace Sys2Proof.Machine

/-- `t` is `s` after register writes and byte writes below the capacity: pc, flags, capacity and status are the same, the
memory's canonical form is kept, and no address at or above the capacity came to be listed. -/
structure State.Wrote (s t : State) : Prop where
  pc        : t.pc = s.pc
  flags     : t.flags = s.flags
  memSize   : t.memSize = s.memSize
  status    : t.status = s.status
  mem_wf    : Memory.wf s.mem → Memory.wf t.mem
  mem_below : ∀ c ∈ t.mem, c ∈ s.mem ∨ c.1 < s.memSize

/-- `t` is `s` after such writes and a new pc: what an instruction that raises no fault leaves. -/
def State.Completes (s t : State) : Prop := ∃ u p, s.Wrote u ∧ t = u.setPc p

theorem State.Wrote.refl (s : State) : s.Wrote s := ⟨rfl, rfl, rfl, rfl, id, fun _ => .inl⟩

theorem State.Wrote.setReg {s u : State} (h : s.Wrote u) (r : Reg) (v : Word) : s.Wrote (u.setReg r v) :=
  ⟨h.pc, h.flags, h.memSize, h.status, h.mem_wf, h.mem_below⟩

/-- A bounded write of bytes, the whole of a store or what a store that faults leaves (R44, D9). -/
theorem State.Wrote.store {s u : State} (h : s.Wrote u) (a : Nat) (vs : List Byte) :
    s.Wrote { u with mem := Memory.writeBelow u.memSize u.mem a vs } where
  pc := h.pc
  flags := h.flags
  memSize := h.memSize
  status := h.status
  mem_wf hs := Memory.wf_writeBelow _ (h.mem_wf hs) a vs
  mem_below c hc := by
    rcases Memory.mem_writeBelow hc with old | new
    · exact h.mem_below c old
    · exact .inr (h.memSize ▸ new)

theorem State.Wrote.setPc {s u : State} (h : s.Wrote u) (p : Word) : s.Completes (u.setPc p) := ⟨u, p, h, rfl⟩

theorem State.Wrote.advance {s u : State} (h : s.Wrote u) (n : Nat) : s.Completes (u.advance n) := h.setPc _

/-- A fault's information speaks of pc and the capacity alone. -/
theorem State.Wrote.fits {s u : State} (h : s.Wrote u) {f : Fault} (hf : f.Fits s) : f.Fits u := by
  cases f <;> simpa only [Fault.Fits, h.pc, h.memSize] using hf

/-- A part of the rule of an instruction that started in `s`: it ends with a result that meets `P`, or raises a fault that fits
`s` in a state only written to since. -/
def RuleMeets {α : Type} (s : State) (P : α → Prop) : Except Raised α → Prop
  | .ok a => P a
  | .error r => r.fault.Fits s ∧ s.Wrote r.state

/-- The parts of a rule in sequence (R12). -/
theorem RuleMeets.bind {α β : Type} {s : State} {P : α → Prop} {Q : β → Prop} {x : Except Raised α}
    {f : α → Except Raised β} (hx : RuleMeets s P x) (hf : ∀ a, P a → RuleMeets s Q (f a)) :
    RuleMeets s Q (x >>= f) := by
  cases x with
  | ok a => exact hf a hx
  | error r => exact hx

/-- The first address of a word access that does not fit fits the fault that records it (R42 to R44). -/
theorem outOfRange_fits {s u : State} (h : s.Wrote u) (a : Nat) :
    (Fault.outOfRange (max a u.memSize) u.pc).Fits s := by
  simp [Fault.Fits, h.pc, h.memSize]

section
variable {s u : State} (h : s.Wrote u)
include h

theorem memRead32_meets (a : Nat) : RuleMeets s (fun _ => True) (memRead32 a u) := by
  by_cases hin : a + 3 < u.memSize
  · rw [memRead32_in_range hin]
    trivial
  · rw [memRead32_out_of_range (by omega)]
    exact ⟨outOfRange_fits h a, h⟩

theorem memWrite32_meets (a : Nat) (v : Word) : RuleMeets s s.Wrote (memWrite32 a v u) := by
  by_cases hin : a + 3 < u.memSize
  · rw [memWrite32_in_range hin, ← Memory.writeBelow_wordBytes u.mem v hin]
    exact h.store a (wordBytes v)
  · rw [memWrite32_out_of_range (by omega)]
    exact ⟨outOfRange_fits h a, h.store a (wordBytes v)⟩

theorem push32_meets (v : Word) : RuleMeets s s.Wrote (push32 v u) :=
  memWrite32_meets (h.setReg .esp _) _ v

theorem pop32_meets : RuleMeets s (fun p => s.Wrote p.2) (pop32 u) :=
  (memRead32_meets h _).bind fun _ _ => h.setReg .esp _

/-- In a memory mode the only fault of the address is the SIB escape's (R72). -/
theorem effectiveAddress_meets {d : Descriptor} (hm : d.mode ≠ .m11) :
    RuleMeets s (fun _ => True) (effectiveAddress d u) := by
  by_cases hr : d.rm = 4
  · rw [effectiveAddress_sib hm hr]
    exact ⟨⟨h.pc, hm, rfl⟩, h⟩
  · obtain ⟨a, ha⟩ := effectiveAddress_memory (s := u) hm hr
    rw [ha]
    trivial

theorem getRm32_meets (d : Descriptor) : RuleMeets s (fun _ => True) (getRm32 d u) := by
  by_cases hm : d.mode = .m11
  · rw [getRm32_direct hm]
    trivial
  · rw [getRm32_memory hm]
    exact (effectiveAddress_meets h hm).bind fun a _ => memRead32_meets h a.toNat

theorem setRm32_meets (d : Descriptor) (v : Word) : RuleMeets s s.Wrote (setRm32 d v u) := by
  by_cases hm : d.mode = .m11
  · rw [setRm32_direct hm]
    exact h.setReg _ v
  · rw [setRm32_memory hm]
    exact (effectiveAddress_meets h hm).bind fun a _ => memWrite32_meets h a.toNat v

end

/-- The shape ADD, SUB and INC share: read the operand, write a value made of it back, go on (R120 to R123). -/
theorem updateRm32_meets (s : State) (d : Descriptor) (f : Word → Word) (n : Nat) :
    RuleMeets s s.Completes (getRm32 d s >>= fun a => setRm32 d (f a) s >>= fun u => .ok (u.advance n)) :=
  (getRm32_meets (.refl s) d).bind fun a _ => (setRm32_meets (.refl s) d (f a)).bind fun _ hu => hu.advance n

/-- A push and a new pc that may depend on the state after it (R140 to R142, R160). -/
theorem pushThen_meets (s : State) (v : Word) (p : State → Word) :
    RuleMeets s s.Completes (push32 v s >>= fun u => .ok (u.setPc (p u))) :=
  (push32_meets (.refl s) v).bind fun u hu => hu.setPc (p u)

/-- Every instruction is a rule that completes or faults as it may. -/
theorem exec_rule (i : Instr) (s : State) : ∃ x, exec i s = finish x ∧ RuleMeets s s.Completes x := by
  have start : s.Wrote s := .refl s
  cases i with
  | movR32Imm32 r imm => exact ⟨.ok _, rfl, (start.setReg r imm).advance 5⟩
  | movRm32Imm32 d imm => exact ⟨_, rfl, (setRm32_meets start d imm).bind fun _ hu => hu.advance _⟩
  | movRm32R32 d => exact ⟨_, rfl, (setRm32_meets start d (getR32 d s)).bind fun _ hu => hu.advance _⟩
  | movR32Rm32 d => exact ⟨_, rfl, (getRm32_meets start d).bind fun v _ => (start.setReg _ v).advance _⟩
  | addRm32R32 d => exact ⟨_, rfl, updateRm32_meets s d (add32 · (getR32 d s)) _⟩
  | addRm32Imm8 d imm => exact ⟨_, rfl, updateRm32_meets s d (add32 · (sext32 imm)) _⟩
  | subRm32Imm8 d imm => exact ⟨_, rfl, updateRm32_meets s d (sub32 · (sext32 imm)) _⟩
  | incRm32 d => exact ⟨_, rfl, updateRm32_meets s d (add32 · 1) _⟩
  | pushR32 r => exact ⟨_, rfl, pushThen_meets s (s.getReg r) _⟩
  | pushImm32 imm => exact ⟨_, rfl, pushThen_meets s imm _⟩
  | pushImm8 imm => exact ⟨_, rfl, pushThen_meets s (zext32 imm) _⟩
  | callRel32 rel => exact ⟨_, rfl, pushThen_meets s (add32 s.pc 5) _⟩
  | popR32 r => exact ⟨_, rfl, (pop32_meets start).bind fun p hp => (hp.setReg r p.1).advance 1⟩
  | leave =>
    exact ⟨_, rfl, (pop32_meets (start.setReg .esp _)).bind fun p hp => (hp.setReg .ebp p.1).advance 1⟩
  | ret => exact ⟨_, rfl, (pop32_meets start).bind fun p hp => hp.setPc p.1⟩
  | jmpRel8 rel => exact ⟨.ok _, rfl, start.setPc _⟩
  | jmpRel32 rel => exact ⟨.ok _, rfl, start.setPc _⟩

/-- The two ends of an instruction: it completes, or its fault is taken. -/
theorem exec_cases (i : Instr) (s : State) :
    (∃ t, exec i s = .next t ∧ s.Completes t) ∨
    (∃ f u, exec i s = .next (takeFault f u) ∧ f.Fits s ∧ s.Wrote u) := by
  obtain ⟨x, hx, hrule⟩ := exec_rule i s
  cases x with
  | ok t => exact .inl ⟨t, hx, hrule⟩
  | error r => exact .inr ⟨r.fault, r.state, hx, hrule⟩

/-- A fault of fetch or dispatch fits the state; for a missing byte, because the window was cut short by the capacity (R42,
R80, R82, R183). -/
theorem fetchFault_fits {s : State} {e : DecodeError} (h : decode (fetchWindow s) = .error e) :
    (fetchFault s e).Fits s := by
  rcases decode_error h with rfl | ⟨opcode, rest, -, absent, rfl⟩ | ⟨opcode, rest, d, r, -, -, nonzero, group, rfl⟩
  · have short := length_lt_of_decode_missing h
    refine ⟨rfl, ?_⟩
    rw [fetchWindow_length] at short ⊢
    omega
  · exact ⟨rfl, absent⟩
  · exact ⟨rfl, nonzero, group.imp opcode_of_dispatch_groupFF (.imp_left opcode_of_dispatch_group83)⟩

/-- Everything a step can do: leave a final state (R184), complete an instruction and check for the sentinel (R182), or take a
fault that fits (R187 to R189). -/
inductive StepEffect (s : State) : State → Prop
  | final (h : s.status ≠ .running) : StepEffect s s
  | completed {t : State} (running : s.status = .running) (h : s.Completes t) : StepEffect s (checkTerminal t)
  | faulted {f : Fault} {u : State} (running : s.status = .running) (fits : f.Fits s) (h : s.Wrote u) :
      StepEffect s (takeFault f u)

/-- A step answers a next state, by one of the three effects. -/
theorem step_effect (s : State) : ∃ t, step s = .next t ∧ StepEffect s t := by
  rcases step_cases s with ⟨final, hstep⟩ | ⟨running, e, hd, hstep⟩ | ⟨running, i, rest, hd, hstep⟩
  · exact ⟨s, hstep, .final final⟩
  · exact ⟨_, hstep, .faulted running (fetchFault_fits hd) (.refl s)⟩
  · rcases exec_cases i s with ⟨t, hexec, done⟩ | ⟨f, u, hexec, fits, wrote⟩
    · exact ⟨checkTerminal t, by rw [hstep, hexec]; rfl, .completed running done⟩
    · refine ⟨takeFault f u, ?_, .faulted running fits wrote⟩
      rw [hstep, hexec, afterExecute, checkTerminal_final (by simp)]

theorem stepEffect_of_step {s t : State} (h : step s = .next t) : StepEffect s t := by
  obtain ⟨u, hu, effect⟩ := step_effect s
  obtain rfl : u = t := by simpa [hu] using h
  exact effect

/-- The capacity and memory clauses of the invariant survive writes below the capacity, whatever becomes of pc and status. -/
theorem State.Inv.of_wrote {s u t : State} (hs : s.Inv) (h : s.Wrote u) (hsize : t.memSize = u.memSize)
    (hmem : t.mem = u.mem) (hstatus : t.StatusFits) : t.Inv where
  capacity_pos := by rw [hsize, h.memSize]; exact hs.capacity_pos
  capacity_le := by rw [hsize, h.memSize]; exact hs.capacity_le
  mem_wf := hmem ▸ h.mem_wf hs.mem_wf
  mem_below c hc := by
    rw [hsize, h.memSize]
    exact (h.mem_below c (hmem ▸ hc)).elim (hs.mem_below c) id
  status_fits := hstatus

/-- Check-Terminal gives a running machine a status that fits (R182). -/
theorem checkTerminal_statusFits {t : State} (running : t.status = .running) : (checkTerminal t).StatusFits := by
  rcases checkTerminal_eq t with h | ⟨-, zero, h⟩
  · simp [h, State.StatusFits, running]
  · simpa [h, State.StatusFits] using zero

/-- Each effect of a step keeps the invariant. -/
theorem StepEffect.keeps_inv {s t : State} (h : StepEffect s t) (hs : s.Inv) : t.Inv := by
  cases h with
  | final => exact hs
  | completed running done =>
    obtain ⟨u, p, wrote, rfl⟩ := done
    have fits := checkTerminal_statusFits (t := u.setPc p) (wrote.status.trans running)
    rcases checkTerminal_eq (u.setPc p) with same | ⟨-, -, same⟩ <;>
      exact hs.of_wrote wrote (by rw [same]; rfl) (by rw [same]; rfl) fits
  | faulted running fits wrote => exact hs.of_wrote wrote rfl rfl (wrote.fits fits)

/-- Settles O53: each of the three effects a step can have keeps the invariant. -/
theorem stepKeepsTheInvariant : Obligations.StepKeepsTheInvariant :=
  fun _ _ hs h => (stepEffect_of_step h).keeps_inv hs

/-- Settles O47: in each of its three cases a step answers a next state. -/
theorem stepAlwaysAnswersANextState : Obligations.StepAlwaysAnswersANextState := by
  intro s
  obtain ⟨t, hstep, -⟩ := step_effect s
  exact ⟨t, hstep⟩

end Sys2Proof.Machine
end

section
/-! The register accessors (R23, R24): the 32-bit one, and the 8-bit one as a half of the low word of its 32-bit register. -/

namespace Sys2Proof.Machine

/-- Settles O1: the laws of the register file, and `setReg` writes no other field. -/
theorem registerWriteReadsBackAndChangesNothingElse : Obligations.RegisterWriteReadsBackAndChangesNothingElse :=
  fun s r v => ⟨rfl, RegFile.get_set_same s.regs r v, fun _ hq => RegFile.get_set_other s.regs v hq, rfl⟩

/-- Bits 15..8 of a word, or bits 7..0. -/
def lowHalf (high : Bool) (w : Word) : Byte := if high then w.extractLsb' 8 8 else w.extractLsb' 0 8

/-- A word with bits 15..8, or bits 7..0, replaced. -/
def putLowHalf (high : Bool) (w : Word) (v : Byte) : Word :=
  if high then (w &&& 0xFFFF00FF) ||| (zext32 v <<< 8) else (w &&& 0xFFFFFF00) ||| zext32 v

theorem State.getReg8_eq (s : State) (i : BitVec 3) :
    s.getReg8 i = lowHalf (byteRegHigh i) (s.regs.get (byteRegHome i)) := rfl

theorem State.setReg8_eq (s : State) (i : BitVec 3) (v : Byte) :
    s.setReg8 i v = s.setReg (byteRegHome i) (putLowHalf (byteRegHigh i) (s.regs.get (byteRegHome i)) v) := rfl

/-- The byte that is replaced, bit by bit: bit `k` of the word lies in it exactly when `k / 8` is its place. -/
theorem getLsbD_putLowHalf (high : Bool) (w : Word) (v : Byte) {k : Nat} (hk : k < 32) :
    (putLowHalf high w v).getLsbD k = if k / 8 = high.toNat then v.getLsbD (k % 8) else w.getLsbD k := by
  cases high with
  | false =>
    simp only [putLowHalf, zext32, Bool.false_eq_true, if_false, BitVec.getLsbD_or, BitVec.getLsbD_and,
      BitVec.getLsbD_setWidth]
    interval_cases k <;> simp
  | true =>
    simp only [putLowHalf, zext32, if_true, BitVec.getLsbD_or, BitVec.getLsbD_and, BitVec.getLsbD_shiftLeft,
      BitVec.getLsbD_setWidth]
    interval_cases k <;> simp

theorem getLsbD_lowHalf (high : Bool) (w : Word) {k : Nat} (hk : k < 8) :
    (lowHalf high w).getLsbD k = w.getLsbD (8 * high.toNat + k) := by
  cases high <;> simp [lowHalf, hk]

@[simp] theorem lowHalf_putLowHalf_same (high : Bool) (w : Word) (v : Byte) :
    lowHalf high (putLowHalf high w v) = v := by
  apply BitVec.eq_of_getLsbD_eq
  intro k hk
  have := high.toNat_le
  rw [getLsbD_lowHalf _ _ hk, getLsbD_putLowHalf _ _ _ (by omega), if_pos (by omega)]
  congr 1
  omega

theorem lowHalf_putLowHalf_other {high other : Bool} (h : other ≠ high) (w : Word) (v : Byte) :
    lowHalf other (putLowHalf high w v) = lowHalf other w := by
  apply BitVec.eq_of_getLsbD_eq
  intro k hk
  have := other.toNat_le
  have apart : other.toNat ≠ high.toNat := by cases other <;> cases high <;> simp at h ⊢
  rw [getLsbD_lowHalf _ _ hk, getLsbD_lowHalf _ _ hk, getLsbD_putLowHalf _ _ _ (by omega), if_neg (by omega)]

/-- Bits 31..16 are in neither half. -/
theorem extractLsb'_putLowHalf (high : Bool) (w : Word) (v : Byte) :
    (putLowHalf high w v).extractLsb' 16 16 = w.extractLsb' 16 16 := by
  apply BitVec.eq_of_getLsbD_eq
  intro k hk
  have := high.toNat_le
  rw [BitVec.getLsbD_extractLsb', BitVec.getLsbD_extractLsb', getLsbD_putLowHalf _ _ _ (by omega), if_neg (by omega)]

/-- An 8-bit register is the register and the half it lies in. -/
theorem byteReg_ext {i j : BitVec 3} (home : byteRegHome j = byteRegHome i) (high : byteRegHigh j = byteRegHigh i) :
    j = i := by
  revert i j; decide

/-- No 8-bit register lies in ESP, EBP, ESI or EDI (R24). -/
theorem byteRegHome_ne (i : BitVec 3) {r : Reg} (hr : r = .esp ∨ r = .ebp ∨ r = .esi ∨ r = .edi) :
    r ≠ byteRegHome i := by
  revert i; rcases hr with rfl | rfl | rfl | rfl <;> decide

/-- The register file after an 8-bit write. -/
theorem get_setReg8_home (s : State) (i : BitVec 3) (v : Byte) :
    (s.setReg8 i v).regs.get (byteRegHome i) = putLowHalf (byteRegHigh i) (s.regs.get (byteRegHome i)) v :=
  RegFile.get_set_same s.regs (byteRegHome i) _

theorem get_setReg8_other (s : State) {i : BitVec 3} (v : Byte) {r : Reg} (h : r ≠ byteRegHome i) :
    (s.setReg8 i v).regs.get r = s.regs.get r :=
  RegFile.get_set_other s.regs _ h

theorem getReg8_setReg8_same (s : State) (i : BitVec 3) (v : Byte) : (s.setReg8 i v).getReg8 i = v := by
  rw [State.getReg8_eq, get_setReg8_home, lowHalf_putLowHalf_same]

/-- Another 8-bit register is the other half of the same register, or lies in another register. -/
theorem getReg8_setReg8_other (s : State) {i j : BitVec 3} (v : Byte) (h : j ≠ i) :
    (s.setReg8 i v).getReg8 j = s.getReg8 j := by
  rw [State.getReg8_eq, State.getReg8_eq]
  by_cases home : byteRegHome j = byteRegHome i
  · rw [home, get_setReg8_home, lowHalf_putLowHalf_other (mt (byteReg_ext home) h)]
  · rw [get_setReg8_other s v home]

theorem setReg8_keeps_upper (s : State) (i : BitVec 3) (v : Byte) (r : Reg) :
    ((s.setReg8 i v).regs.get r).extractLsb' 16 16 = (s.regs.get r).extractLsb' 16 16 := by
  by_cases home : r = byteRegHome i
  · rw [home, get_setReg8_home, extractLsb'_putLowHalf]
  · rw [get_setReg8_other s v home]

/-- Settles O2: the index mapping by evaluation, the write by the laws of the two low halves of a register. -/
theorem byteRegisterWriteChangesOnlyItsByte : Obligations.ByteRegisterWriteChangesOnlyItsByte := fun s i v =>
  ⟨rfl, rfl, rfl, rfl, rfl, rfl, rfl, rfl, getReg8_setReg8_same s i v, fun _ hj => getReg8_setReg8_other s v hj,
    setReg8_keeps_upper s i v, fun _ hr => get_setReg8_other s v (byteRegHome_ne i hr), rfl⟩

end Sys2Proof.Machine
end

section
/-! The flags word and the capacity (R30, R40): no step writes either, and no step reads the flags word.  That it is not read
is said as a commutation: putting another flags word in first and then acting is acting first and then putting it in, for
every shared operation, so for every rule, so for a step. -/

namespace Sys2Proof.Machine

@[simp] theorem checkTerminal_flags (s : State) : (checkTerminal s).flags = s.flags := by
  rcases checkTerminal_eq s with h | ⟨-, -, h⟩ <;> rw [h]

@[simp] theorem checkTerminal_memSize (s : State) : (checkTerminal s).memSize = s.memSize := by
  rcases checkTerminal_eq s with h | ⟨-, -, h⟩ <;> rw [h]

/-- No effect of a step writes the flags word or the capacity. -/
theorem StepEffect.keeps_flags_and_memSize {s t : State} (h : StepEffect s t) :
    t.flags = s.flags ∧ t.memSize = s.memSize := by
  cases h with
  | final => exact ⟨rfl, rfl⟩
  | completed _ done =>
    obtain ⟨u, p, wrote, rfl⟩ := done
    simp [wrote.flags, wrote.memSize]
  | faulted _ _ wrote => exact ⟨wrote.flags, wrote.memSize⟩

/-- Settles O48: each of the three effects a step can have keeps both. -/
theorem flagsAndCapacityNeverChange : Obligations.FlagsAndCapacityNeverChange :=
  fun _ _ h => (stepEffect_of_step h).keeps_flags_and_memSize

/-- The state with another flags word. -/
def withFlags (w : Word) (s : State) : State := { s with flags := w }

/-- A part of a rule with the flags word `w` put into its end: into the state of a fault, and into a result by `g`. -/
def mapFlags {α : Type} (w : Word) (g : α → α) : Except Raised α → Except Raised α
  | .ok a => .ok (g a)
  | .error r => .error ⟨r.fault, withFlags w r.state⟩

/-- The parts of a rule in sequence (R12): if each commutes with the change of flags word, the whole does. -/
theorem mapFlags_bind {α β : Type} {w : Word} {g : α → α} {k : β → β} {x y : Except Raised α}
    {f h : α → Except Raised β} (hx : y = mapFlags w g x) (hf : ∀ a, h (g a) = mapFlags w k (f a)) :
    (y >>= h) = mapFlags w k (x >>= f) := by
  subst hx
  cases x with
  | ok a => exact hf a
  | error r => rfl

section
variable (w : Word) (s : State)

theorem memRead32_withFlags (a : Nat) : memRead32 a (withFlags w s) = mapFlags w id (memRead32 a s) := by
  by_cases hin : a + 3 < s.memSize
  · rw [memRead32_in_range hin, memRead32_in_range (s := withFlags w s) hin]
    rfl
  · have out := Nat.le_of_not_lt hin
    rw [memRead32_out_of_range out, memRead32_out_of_range (s := withFlags w s) out]
    rfl

theorem memWrite32_withFlags (a : Nat) (v : Word) :
    memWrite32 a v (withFlags w s) = mapFlags w (withFlags w) (memWrite32 a v s) := by
  by_cases hin : a + 3 < s.memSize
  · rw [memWrite32_in_range hin, memWrite32_in_range (s := withFlags w s) hin]
    rfl
  · have out := Nat.le_of_not_lt hin
    rw [memWrite32_out_of_range out, memWrite32_out_of_range (s := withFlags w s) out]
    rfl

theorem push32_withFlags (v : Word) : push32 v (withFlags w s) = mapFlags w (withFlags w) (push32 v s) :=
  memWrite32_withFlags w (s.setReg .esp (sub32 (s.getReg .esp) 4)) _ v

theorem pop32_withFlags : pop32 (withFlags w s) = mapFlags w (Prod.map id (withFlags w)) (pop32 s) :=
  mapFlags_bind (memRead32_withFlags w s _) fun _ => rfl

theorem effectiveAddress_withFlags (d : Descriptor) :
    effectiveAddress d (withFlags w s) = mapFlags w id (effectiveAddress d s) := by
  by_cases hm : d.mode = .m11
  · rw [effectiveAddress_direct hm, effectiveAddress_direct hm]
    rfl
  · by_cases hr : d.rm = 4
    · rw [effectiveAddress_sib hm hr, effectiveAddress_sib hm hr]
      rfl
    · obtain ⟨a, ha⟩ := effectiveAddress_memory (s := s) hm hr
      rw [ha, effectiveAddress_ok_congr (s := s) (t := withFlags w s) rfl ha]
      rfl

theorem getRm32_withFlags (d : Descriptor) : getRm32 d (withFlags w s) = mapFlags w id (getRm32 d s) := by
  by_cases hm : d.mode = .m11
  · rw [getRm32_direct hm, getRm32_direct hm]
    rfl
  · rw [getRm32_memory hm, getRm32_memory hm]
    exact mapFlags_bind (effectiveAddress_withFlags w s d) fun a => memRead32_withFlags w s a.toNat

theorem setRm32_withFlags (d : Descriptor) (v : Word) :
    setRm32 d v (withFlags w s) = mapFlags w (withFlags w) (setRm32 d v s) := by
  by_cases hm : d.mode = .m11
  · rw [setRm32_direct hm, setRm32_direct hm]
    rfl
  · rw [setRm32_memory hm, setRm32_memory hm]
    exact mapFlags_bind (effectiveAddress_withFlags w s d) fun a => memWrite32_withFlags w s a.toNat v

/-- A store to the r/m operand and a new pc (R101, R102). -/
theorem setRm32Advance_withFlags (d : Descriptor) (v : Word) (n : Nat) :
    (setRm32 d v (withFlags w s) >>= fun u => .ok (u.advance n)) =
      mapFlags w (withFlags w) (setRm32 d v s >>= fun u => .ok (u.advance n)) :=
  mapFlags_bind (setRm32_withFlags w s d v) fun _ => rfl

/-- The shape ADD, SUB and INC share: read the operand, write a value made of it back, go on (R120 to R123). -/
theorem updateRm32_withFlags (d : Descriptor) (f : Word → Word) (n : Nat) :
    (getRm32 d (withFlags w s) >>= fun a => setRm32 d (f a) (withFlags w s) >>= fun u => .ok (u.advance n)) =
      mapFlags w (withFlags w) (getRm32 d s >>= fun a => setRm32 d (f a) s >>= fun u => .ok (u.advance n)) :=
  mapFlags_bind (getRm32_withFlags w s d) fun a => setRm32Advance_withFlags w s d (f a) n

/-- The end of a rule, with the one flags word and with the other. -/
theorem finish_mapFlags (x : Except Raised State) :
    ∃ t, finish x = .next t ∧ finish (mapFlags w (withFlags w) x) = .next (withFlags w t) := by
  cases x with
  | ok t => exact ⟨t, rfl, rfl⟩
  | error r => exact ⟨takeFault r.fault r.state, rfl, rfl⟩

/-- Every instruction is a rule that commutes with a change of the flags word. -/
theorem exec_rule_withFlags (i : Instr) :
    ∃ x, exec i s = finish x ∧ exec i (withFlags w s) = finish (mapFlags w (withFlags w) x) := by
  have byRule {x y : Except Raised State} (hx : exec i s = finish x) (hy : exec i (withFlags w s) = finish y)
      (h : y = mapFlags w (withFlags w) x) :
      ∃ x, exec i s = finish x ∧ exec i (withFlags w s) = finish (mapFlags w (withFlags w) x) := ⟨x, hx, h ▸ hy⟩
  cases i with
  | movR32Imm32 r imm => exact ⟨.ok _, rfl, rfl⟩
  | movRm32Imm32 d imm => exact byRule rfl rfl (setRm32Advance_withFlags w s d imm _)
  | movRm32R32 d => exact byRule rfl rfl (setRm32Advance_withFlags w s d (getR32 d s) _)
  | movR32Rm32 d => exact byRule rfl rfl (mapFlags_bind (getRm32_withFlags w s d) fun _ => rfl)
  | addRm32R32 d => exact byRule rfl rfl (updateRm32_withFlags w s d (add32 · (getR32 d s)) _)
  | addRm32Imm8 d imm => exact byRule rfl rfl (updateRm32_withFlags w s d (add32 · (sext32 imm)) _)
  | subRm32Imm8 d imm => exact byRule rfl rfl (updateRm32_withFlags w s d (sub32 · (sext32 imm)) _)
  | incRm32 d => exact byRule rfl rfl (updateRm32_withFlags w s d (add32 · 1) _)
  | pushR32 r => exact byRule rfl rfl (mapFlags_bind (push32_withFlags w s (s.getReg r)) fun _ => rfl)
  | pushImm32 imm => exact byRule rfl rfl (mapFlags_bind (push32_withFlags w s imm) fun _ => rfl)
  | pushImm8 imm => exact byRule rfl rfl (mapFlags_bind (push32_withFlags w s (zext32 imm)) fun _ => rfl)
  | callRel32 rel => exact byRule rfl rfl (mapFlags_bind (push32_withFlags w s (add32 s.pc 5)) fun _ => rfl)
  | popR32 r => exact byRule rfl rfl (mapFlags_bind (pop32_withFlags w s) fun _ => rfl)
  | leave =>
    exact byRule rfl rfl (mapFlags_bind (pop32_withFlags w (s.setReg .esp (s.getReg .ebp))) fun _ => rfl)
  | ret => exact byRule rfl rfl (mapFlags_bind (pop32_withFlags w s) fun _ => rfl)
  | jmpRel8 rel => exact ⟨.ok _, rfl, rfl⟩
  | jmpRel32 rel => exact ⟨.ok _, rfl, rfl⟩

theorem exec_withFlags (i : Instr) :
    ∃ t, exec i s = .next t ∧ exec i (withFlags w s) = .next (withFlags w t) := by
  obtain ⟨x, hexec, hexec'⟩ := exec_rule_withFlags w s i
  rw [hexec, hexec']
  exact finish_mapFlags w x

theorem checkTerminal_withFlags : checkTerminal (withFlags w s) = withFlags w (checkTerminal s) :=
  (apply_ite (withFlags w) (s.status = .running ∧ s.pc = 0) { s with status := .halted } s).symm

end

/-- A step in a final state changes nothing (R184). -/
theorem step_of_final {s : State} (final : s.status ≠ .running) : step s = .next s := by
  rcases step_cases s with ⟨-, hstep⟩ | ⟨running, -⟩ | ⟨running, -⟩
  · exact hstep
  · exact absurd running final
  · exact absurd running final

/-- A step on bytes that are no instruction takes the fault of fetch or dispatch (R183, R187, R188). -/
theorem step_of_decode_error {s : State} {e : DecodeError} (running : s.status = .running)
    (hd : decode (fetchWindow s) = .error e) : step s = .next (takeFault (fetchFault s e) s) := by
  simp [step, fetch, raise, running, hd]

/-- A step on an instruction runs it (R180). -/
theorem step_of_decode_ok {s : State} {i : Instr} {rest : List Byte} (running : s.status = .running)
    (hd : decode (fetchWindow s) = .ok (i, rest)) : step s = afterExecute (exec i s) := by
  simp [step, fetch, running, hd]

/-- A step commutes with a change of the flags word: fetch and dispatch do not see it, and the rules commute. -/
theorem step_withFlags (w : Word) (s : State) :
    ∃ t, step s = .next t ∧ step (withFlags w s) = .next (withFlags w t) := by
  rcases step_cases s with ⟨final, hstep⟩ | ⟨running, e, hd, hstep⟩ | ⟨running, i, rest, hd, hstep⟩
  · exact ⟨s, hstep, step_of_final final⟩
  · exact ⟨_, hstep, step_of_decode_error (s := withFlags w s) running hd⟩
  · obtain ⟨t, hexec, hexec'⟩ := exec_withFlags w s i
    refine ⟨checkTerminal t, by rw [hstep, hexec]; rfl, ?_⟩
    rw [step_of_decode_ok (s := withFlags w s) running hd, hexec', afterExecute, checkTerminal_withFlags]

/-- Settles O49: a step commutes with a change of the flags word. -/
theorem flagsAreNeverConsumed : Obligations.FlagsAreNeverConsumed := by
  intro s t w h
  obtain ⟨u, hu, hstep⟩ := step_withFlags w s
  obtain rfl : u = t := by simpa [hu] using h
  exact hstep

end Sys2Proof.Machine
end

section
/-! The state after reset (R220). -/

namespace Sys2Proof.Machine

/-- Settles O54: nothing is listed in memory, the capacity is a number R7 allows, and the machine is Running. -/
theorem resetMeetsTheInvariant : Obligations.ResetMeetsTheInvariant where
  capacity_pos := by decide
  capacity_le := by decide
  mem_wf := ⟨.nil, nofun⟩
  mem_below := nofun
  status_fits := trivial

end Sys2Proof.Machine
end

section
/-! Decoding and encoding as inverses of each other, part by part (R60 to R81), by way of the one opcode a handler has for a
register.  An instruction cut short is then decided by length alone: no proper front of an encoding decodes. -/

namespace Sys2Proof

/-- The opcode of a handler; an OP+r handler has one for each register, the others do not look at it (R62, R79). -/
def Handler.opcode (r : Reg) : Handler → Byte
  | .addRm32R32 => 0x01
  | .pushR32 => opcodeWithReg 0x50 r
  | .popR32 => opcodeWithReg 0x58 r
  | .pushImm32 => 0x68
  | .pushImm8 => 0x6A
  | .group83 => 0x83
  | .movRm32R32 => 0x89
  | .movR32Rm32 => 0x8B
  | .movR32Imm32 => opcodeWithReg 0xB8 r
  | .ret => 0xC3
  | .movRm32Imm32 => 0xC7
  | .leave => 0xC9
  | .callRel32 => 0xE8
  | .nearJump => 0xE9
  | .shortJump => 0xEB
  | .groupFF => 0xFF

/-- The dispatch slot of a handler's opcode holds the handler. -/
theorem dispatch_handler_opcode (r : Reg) (h : Handler) : dispatch (h.opcode r) = some h := by
  cases r <;> cases h <;> decide

/-- An opcode is its handler's, for the register it holds. -/
theorem opcode_of_dispatch {opcode : Byte} {h : Handler} (hd : dispatch opcode = some h) :
    opcode = h.opcode (opcodeReg opcode) := by
  have all : ∀ opcode, (dispatch opcode).all fun h => opcode == h.opcode (opcodeReg opcode) := by decide
  have here := all opcode
  rw [hd] at here
  exact eq_of_beq here

/-- An OP+r opcode holds its register (R62). -/
theorem opcodeReg_opcodeWithReg (r : Reg) :
    opcodeReg (opcodeWithReg 0x50 r) = r ∧ opcodeReg (opcodeWithReg 0x58 r) = r ∧
    opcodeReg (opcodeWithReg 0xB8 r) = r := by
  cases r <;> decide

/-- Bytes that begin with a handler's opcode are decoded by the handler (R62). -/
theorem decode_handler_opcode (r : Reg) (h : Handler) (bytes : List Byte) :
    decode (h.opcode r :: bytes) = decodeOperands (h.opcode r) h bytes := by
  simp only [decode, dispatch_handler_opcode]

/-- The encoding of a well-formed instruction decodes to it, whatever follows (R61, R79). -/
theorem decode_encode_append {i : Instr} (hi : i.wf = true) (rest : List Byte) :
    decode (encode i ++ rest) = .ok (i, rest) := by
  have region {d : Descriptor} {tail : List Byte} {f : Descriptor × List Byte → Except DecodeError (Instr × List Byte)}
      (hd : d.wf = true) : (decodeModRM (encodeModRM d ++ tail) >>= f) = f (d, tail) := by
    rw [decodeModRM_encodeModRM tail hd]
    rfl
  have word {v : Word} {f : Word × List Byte → Except DecodeError (Instr × List Byte)} :
      (takeWord (wordBytes v ++ rest) >>= f) = f (v, rest) := by
    rw [takeWord_wordBytes]
    rfl
  cases i with
  | movR32Imm32 r imm =>
    refine (decode_handler_opcode r .movR32Imm32 (wordBytes imm ++ rest)).trans (word.trans ?_)
    simp only [Handler.opcode, (opcodeReg_opcodeWithReg r).2.2]
    rfl
  | movRm32Imm32 d imm =>
    simp only [encode, List.cons_append, List.append_assoc]
    exact (decode_handler_opcode .eax .movRm32Imm32 _).trans ((region hi).trans word)
  | movRm32R32 d => exact (decode_handler_opcode .eax .movRm32R32 _).trans (region hi)
  | movR32Rm32 d => exact (decode_handler_opcode .eax .movR32Rm32 _).trans (region hi)
  | addRm32R32 d => exact (decode_handler_opcode .eax .addRm32R32 _).trans (region hi)
  | addRm32Imm8 d imm =>
    obtain ⟨hd, hreg⟩ : d.wf = true ∧ d.reg = 0 := by simpa only [Instr.wf, Bool.and_eq_true, beq_iff_eq] using hi
    simp only [encode, List.cons_append, List.append_assoc]
    exact (decode_handler_opcode .eax .group83 _).trans ((region hd).trans (if_pos hreg))
  | subRm32Imm8 d imm =>
    obtain ⟨hd, hreg⟩ : d.wf = true ∧ d.reg = 5 := by simpa only [Instr.wf, Bool.and_eq_true, beq_iff_eq] using hi
    have notAdd : d.reg ≠ 0 := by rw [hreg]; decide
    simp only [encode, List.cons_append, List.append_assoc]
    exact (decode_handler_opcode .eax .group83 _).trans ((region hd).trans ((if_neg notAdd).trans (if_pos hreg)))
  | incRm32 d =>
    obtain ⟨hd, hreg⟩ : d.wf = true ∧ d.reg = 0 := by simpa only [Instr.wf, Bool.and_eq_true, beq_iff_eq] using hi
    exact (decode_handler_opcode .eax .groupFF _).trans ((region hd).trans (if_pos hreg))
  | pushR32 r =>
    refine (decode_handler_opcode r .pushR32 rest).trans ?_
    simp only [decodeOperands, Handler.opcode, (opcodeReg_opcodeWithReg r).1]
    rfl
  | popR32 r =>
    refine (decode_handler_opcode r .popR32 rest).trans ?_
    simp only [decodeOperands, Handler.opcode, (opcodeReg_opcodeWithReg r).2.1]
    rfl
  | pushImm32 imm => exact (decode_handler_opcode .eax .pushImm32 _).trans word
  | pushImm8 imm => exact decode_handler_opcode .eax .pushImm8 _
  | leave => exact decode_handler_opcode .eax .leave _
  | callRel32 rel => exact (decode_handler_opcode .eax .callRel32 _).trans word
  | ret => exact decode_handler_opcode .eax .ret _
  | jmpRel8 rel => exact decode_handler_opcode .eax .shortJump _
  | jmpRel32 rel => exact (decode_handler_opcode .eax .nearJump _).trans word

/-- Two parts of a decoding in sequence succeed where both do. -/
theorem decodeBind_ok {α β : Type} {x : Except DecodeError α} {f : α → Except DecodeError β} {b : β}
    (h : (x >>= f) = .ok b) : ∃ a, x = .ok a ∧ f a = .ok b := by
  cases x with
  | ok a => exact ⟨a, rfl, h⟩
  | error e => cases h

/-- What a handler accepts after its opcode is well formed and exactly the encoding (R61, R78, R80). -/
theorem decodeOperands_ok {opcode : Byte} {h : Handler} {bytes rest : List Byte} {i : Instr}
    (hop : opcode = h.opcode (opcodeReg opcode)) (hi : decodeOperands opcode h bytes = .ok (i, rest)) :
    i.wf = true ∧ opcode :: bytes = encode i ++ rest := by
  have region {f : Descriptor × List Byte → Except DecodeError (Instr × List Byte)}
      (h : (decodeModRM bytes >>= f) = .ok (i, rest)) :
      ∃ d tail, d.wf = true ∧ bytes = encodeModRM d ++ tail ∧ f (d, tail) = .ok (i, rest) := by
    obtain ⟨⟨d, tail⟩, hd, hf⟩ := decodeBind_ok h
    obtain ⟨wf, front⟩ := decodeModRM_ok hd
    exact ⟨d, tail, wf, front, hf⟩
  have word {f : Word → Instr} {bytes : List Byte}
      (h : (takeWord bytes >>= fun p => .ok (f p.1, p.2)) = .ok (i, rest)) :
      ∃ v, i = f v ∧ bytes = wordBytes v ++ rest := by
    obtain ⟨⟨v, tail⟩, hv, hf⟩ := decodeBind_ok h
    cases hf
    exact ⟨v, rfl, takeWord_ok hv⟩
  have byte {f : Byte → Instr} {bytes : List Byte}
      (h : (takeByte bytes >>= fun p => .ok (f p.1, p.2)) = .ok (i, rest)) :
      ∃ v, i = f v ∧ bytes = v :: rest := by
    obtain ⟨⟨v, tail⟩, hv, hf⟩ := decodeBind_ok h
    cases hf
    exact ⟨v, rfl, takeByte_ok hv⟩
  rw [hop]
  cases h with
  | addRm32R32 =>
    obtain ⟨d, tail, wf, rfl, hf⟩ := region hi
    cases hf
    exact ⟨wf, rfl⟩
  | movRm32R32 =>
    obtain ⟨d, tail, wf, rfl, hf⟩ := region hi
    cases hf
    exact ⟨wf, rfl⟩
  | movR32Rm32 =>
    obtain ⟨d, tail, wf, rfl, hf⟩ := region hi
    cases hf
    exact ⟨wf, rfl⟩
  | movRm32Imm32 =>
    obtain ⟨d, tail, wf, rfl, hf⟩ := region hi
    obtain ⟨v, rfl, rfl⟩ := word (f := .movRm32Imm32 d) hf
    exact ⟨wf, by simp [encode, Handler.opcode]⟩
  | group83 =>
    obtain ⟨d, tail, wf, rfl, hf⟩ := region hi
    dsimp only at hf
    split at hf
    · rename_i hreg
      obtain ⟨v, rfl, rfl⟩ := byte (f := .addRm32Imm8 d) hf
      exact ⟨by simp [Instr.wf, wf, hreg], by simp [encode, Handler.opcode]⟩
    · split at hf
      · rename_i hreg
        obtain ⟨v, rfl, rfl⟩ := byte (f := .subRm32Imm8 d) hf
        exact ⟨by simp [Instr.wf, wf, hreg], by simp [encode, Handler.opcode]⟩
      · cases hf
  | groupFF =>
    obtain ⟨d, tail, wf, rfl, hf⟩ := region hi
    dsimp only at hf
    split at hf
    · rename_i hreg
      cases hf
      exact ⟨by simp [Instr.wf, wf, hreg], rfl⟩
    · cases hf
  | pushR32 => cases hi; exact ⟨rfl, rfl⟩
  | popR32 => cases hi; exact ⟨rfl, rfl⟩
  | ret => cases hi; exact ⟨rfl, rfl⟩
  | leave => cases hi; exact ⟨rfl, rfl⟩
  | pushImm32 => obtain ⟨v, rfl, rfl⟩ := word (f := .pushImm32) hi; exact ⟨rfl, rfl⟩
  | movR32Imm32 => obtain ⟨v, rfl, rfl⟩ := word (f := .movR32Imm32 (opcodeReg opcode)) hi; exact ⟨rfl, rfl⟩
  | callRel32 => obtain ⟨v, rfl, rfl⟩ := word (f := .callRel32) hi; exact ⟨rfl, rfl⟩
  | nearJump => obtain ⟨v, rfl, rfl⟩ := word (f := .jmpRel32) hi; exact ⟨rfl, rfl⟩
  | pushImm8 => obtain ⟨v, rfl, rfl⟩ := byte (f := .pushImm8) hi; exact ⟨rfl, rfl⟩
  | shortJump => obtain ⟨v, rfl, rfl⟩ := byte (f := .jmpRel8) hi; exact ⟨rfl, rfl⟩

/-- What the decoder accepts is well formed and exactly the encoding (R60, R69). -/
theorem decode_ok {bytes rest : List Byte} {i : Instr} (h : decode bytes = .ok (i, rest)) :
    i.wf = true ∧ bytes = encode i ++ rest := by
  cases bytes with
  | nil => cases h
  | cons opcode tail =>
    simp only [decode] at h
    split at h
    · cases h
    · rename_i hd
      exact decodeOperands_ok (opcode_of_dispatch hd) h


/-- An accepted instruction stays the same when bytes follow. -/
theorem decode_append_of_ok {bytes rest : List Byte} {i : Instr} (h : decode bytes = .ok (i, rest)) (more : List Byte) :
    decode (bytes ++ more) = .ok (i, rest ++ more) := by
  obtain ⟨wf, rfl⟩ := decode_ok h
  rw [List.append_assoc, decode_encode_append wf]

/-- More bytes mend no rejection but that of a missing byte (R70, R80, R82). -/
theorem decode_append_of_error {bytes : List Byte} {e : DecodeError} (h : decode bytes = .error e) (he : e ≠ .missing)
    (more : List Byte) : decode (bytes ++ more) = .error e := by
  rcases decode_error h with rfl | ⟨opcode, rest, rfl, absent, rfl⟩ | ⟨opcode, rest, d, tail, rfl, hd, nonzero, group, rfl⟩
  · exact absurd rfl he
  · simp [decode, absent]
  · obtain ⟨wf, rfl⟩ := decodeModRM_ok hd
    have region : decodeModRM (encodeModRM d ++ (tail ++ more)) = .ok (d, tail ++ more) := decodeModRM_encodeModRM _ wf
    rw [List.cons_append, List.append_assoc]
    rcases group with slot | ⟨slot, notSub⟩
    · simp only [decode, slot, decodeOperands, region, bind, Except.bind, if_neg nonzero]
    · simp only [decode, slot, decodeOperands, region, bind, Except.bind, if_neg nonzero, if_neg notSub]

/-- A proper front of an encoding lacks a byte: what it decoded to otherwise, the whole encoding would decode to. -/
theorem decode_take_encode {i : Instr} (hi : i.wf = true) {k : Nat} (hk : k < (encode i).length) :
    decode ((encode i).take k) = .error .missing := by
  have whole : decode ((encode i).take k ++ (encode i).drop k) = .ok (i, []) := by
    rw [List.take_append_drop]
    simpa using decode_encode_append hi []
  cases hd : decode ((encode i).take k) with
  | ok p =>
    rw [decode_append_of_ok (rest := p.2) hd] at whole
    have nothing : p.2 ++ (encode i).drop k = [] := congrArg Prod.snd (Except.ok.inj whole)
    have : (encode i).length ≤ k := List.drop_eq_nil_iff.1 (List.append_eq_nil_iff.1 nothing).2
    omega
  | error e =>
    by_cases he : e = .missing
    · rw [he]
    · rw [decode_append_of_error hd he] at whole
      cases whole

/-- An encoding has at most eleven bytes (R84). -/
theorem encode_length_le {i : Instr} (hi : i.wf = true) : (encode i).length ≤ maxLength := by
  have taken := decode_takesAtMost (encode i ++ [])
  rw [decode_encode_append hi] at taken
  simpa [TakesAtMost] using taken

end Sys2Proof
end

section
/-! Fetching an instruction that stands at pc, whole or cut short by the capacity (R48, R180, R183). -/

namespace Sys2Proof.Machine

/-- A step of a machine that holds an instruction runs it (R180). -/
theorem step_of_holds {s : State} {i : Instr} (hi : i.wf = true) (h : s.Holds i) :
    step s = afterExecute (exec i s) := by
  obtain ⟨rest, window⟩ := fetchWindow_prefix (encode_length_le hi) h.in_range h.bytes
  exact step_of_decode_ok h.running (window ▸ decode_encode_append hi rest)

/-- With `k` bytes of an encoding left below the capacity, those bytes are the window. -/
theorem fetchWindow_cutShort {s : State} {i : Instr} (hi : i.wf = true) {k : Nat} (cut : s.pc.toNat + k = s.memSize)
    (hk : k < (encode i).length)
    (bytes : ∀ j (hj : j < k), Memory.read s.mem (s.pc.toNat + j) = (encode i)[j]'(Nat.lt_trans hj hk)) :
    fetchWindow s = (encode i).take k := by
  have := encode_length_le hi
  apply List.ext_getElem
  · rw [fetchWindow_length, List.length_take]
    omega
  · intro j _ hj
    rw [fetchWindow_getElem, List.getElem_take]
    exact bytes j (Nat.lt_of_lt_of_le hj (List.length_take_le _ _))

/-- Settles O16: the window is a proper front of the encoding, so decoding lacks the byte at the capacity. -/
theorem instructionCutShortFaults : Obligations.InstructionCutShortFaults := by
  rintro s i hi ⟨running, k, cut, hk, bytes⟩
  have window := fetchWindow_cutShort hi cut hk bytes
  have missing : decode (fetchWindow s) = .error .missing := window ▸ decode_take_encode hi hk
  have address : s.pc.toNat + (fetchWindow s).length = s.memSize := by
    rw [window, List.length_take]
    omega
  rw [step_of_decode_error running missing, fetchFault, address]
  rfl

end Sys2Proof.Machine
end

section
/-! Word accesses to memory, whole and cut short by the capacity (R43, R44, R47), and the stack primitives on top of them
(R50, R51). -/

namespace Sys2Proof.Machine

/-- Byte `k` of the list of a word's bytes (R44). -/
theorem getElem_wordBytes (v : Word) (k : Nat) (hk : k < (wordBytes v).length) : (wordBytes v)[k] = byteOfWord v k := by
  have : k < 4 := hk
  interval_cases k <;> rfl

/-- Each byte of a word store that lies below the limit reads as the word's byte (R44). -/
theorem Memory.read_writeBelow_wordBytes {limit : Nat} {m : Memory} (hm : Memory.wf m) {a k : Nat} (v : Word) (hk : k < 4)
    (below : a + k < limit) : Memory.read (Memory.writeBelow limit m a (wordBytes v)) (a + k) = byteOfWord v k := by
  exact (Memory.read_writeBelow limit hm a (wordBytes v) k hk below).trans (getElem_wordBytes v k hk)

/-- Each byte of a word store reads as the word's byte (R44). -/
theorem Memory.read_writeWord {m : Memory} (hm : Memory.wf m) (a : Nat) (v : Word) {k : Nat} (hk : k < 4) :
    Memory.read (Memory.writeWord m a v) (a + k) = byteOfWord v k := by
  rw [← Memory.writeBelow_wordBytes (limit := a + 4) m v (by omega)]
  exact Memory.read_writeBelow_wordBytes hm v hk (by omega)

/-- A word that was stored is read back (R47). -/
theorem Memory.readWord_writeWord {m : Memory} (hm : Memory.wf m) (a : Nat) (v : Word) :
    Memory.readWord (Memory.writeWord m a v) a = v := by
  have byte {k : Nat} (hk : k < 4) := Memory.read_writeWord hm a v hk
  rw [Memory.readWord, byte (k := 1) (by omega), byte (k := 2) (by omega), byte (k := 3) (by omega),
    show Memory.read (Memory.writeWord m a v) a = byteOfWord v 0 from byte (k := 0) (by omega), wordOfBytes_byteOfWord]

/-- A bounded write of bytes leaves every address at or above the limit alone. -/
theorem Memory.read_writeBelow_above {limit b : Nat} (m : Memory) (a : Nat) (vs : List Byte) (h : limit ≤ b) :
    Memory.read (Memory.writeBelow limit m a vs) b = Memory.read m b := by
  induction vs generalizing m a with
  | nil => rfl
  | cons v vs ih =>
    rw [Memory.writeBelow, ih]
    split
    · exact Memory.read_write_other m v (by omega)
    · rfl

/-- The state after a word store that fits (R44). -/
def State.storeWord (s : State) (a : Nat) (v : Word) : State := { s with mem := Memory.writeWord s.mem a v }

theorem memWrite32_eq_storeWord {s : State} {a : Nat} (v : Word) (fits : a + 3 < s.memSize) :
    memWrite32 a v s = .ok (s.storeWord a v) :=
  memWrite32_in_range fits

/-- The word that was stored is the one loaded (R47). -/
theorem memRead32_storeWord {s : State} (hm : Memory.wf s.mem) {a : Nat} (v : Word) (fits : a + 3 < s.memSize) :
    memRead32 a (s.storeWord a v) = .ok v := by
  rw [memRead32_in_range (s := s.storeWord a v) fits]
  exact congrArg Except.ok (Memory.readWord_writeWord hm a v)

/-- Byte `k` of the word that was stored is the one loaded at its address (R44, R47). -/
theorem memRead8_storeWord {s : State} (hm : Memory.wf s.mem) {a k : Nat} (v : Word) (hk : k < 4)
    (fits : a + 3 < s.memSize) : memRead8 (a + k) (s.storeWord a v) = .ok (byteOfWord v k) := by
  have below : a + k < (s.storeWord a v).memSize := Nat.lt_of_le_of_lt (by omega) fits
  rw [memRead8, if_pos below]
  exact congrArg Except.ok (Memory.read_writeWord hm a v hk)

/-- Settles O3: what a word store leaves reads back as the word and as its bytes. -/
theorem wordStoreThenLoadReturnsTheWord : Obligations.WordStoreThenLoadReturnsTheWord := fun s a v hm fits =>
  ⟨⟨s.storeWord a v, memWrite32_eq_storeWord v fits, memRead32_storeWord hm v fits,
    fun _ hk => memRead8_storeWord hm v hk fits⟩, memRead32_in_range fits⟩

/-- Settles O4: the store is the write bounded by the capacity. -/
theorem straddlingStoreKeepsItsInRangeBytes : Obligations.StraddlingStoreKeepsItsInRangeBytes := by
  intro s a v hm out
  refine ⟨_, memWrite32_out_of_range out, rfl, fun k hk below => Memory.read_writeBelow_wordBytes hm v hk below, ?_⟩
  rintro b (before | above)
  · exact Memory.read_writeBelow_other _ s.mem a _ (.inl before)
  · exact Memory.read_writeBelow_above s.mem a _ above

/-- A pop gives the word that a load at ESP gives (R51). -/
theorem pop32_of_memRead32 {s : State} {v : Word} (h : memRead32 s.regs.esp.toNat s = .ok v) :
    pop32 s = .ok (v, s.setReg .esp (s.regs.esp + 4)) := by
  simp [pop32, RegFile.get, h, add32, bind, Except.bind, pure, Except.pure]

/-- A pop right after a push that fits gives the value back, and every register is as before the push (R51). -/
theorem pop32_after_push32 {s : State} (hm : Memory.wf s.mem) (v : Word) (fits : (s.regs.esp - 4).toNat + 3 < s.memSize) :
    ∃ t u, push32 v s = .ok t ∧ t.regs.esp = s.regs.esp - 4 ∧ pop32 t = .ok (v, u) ∧ u.regs = s.regs := by
  let t := (s.setReg .esp (s.regs.esp - 4)).storeWord (s.regs.esp - 4).toNat v
  have loaded : memRead32 t.regs.esp.toNat t = .ok v :=
    memRead32_storeWord (s := s.setReg .esp (s.regs.esp - 4)) hm v fits
  refine ⟨t, _, push32_in_range fits, rfl, pop32_of_memRead32 loaded, ?_⟩
  show s.regs.set .esp (s.regs.esp - 4 + 4) = s.regs
  rw [BitVec.sub_add_cancel]
  rfl

/-- Settles O5: the pop that fits, the pop that does not, and the pop after a push. -/
theorem popUndoesPush : Obligations.PopUndoesPush := fun _ v =>
  ⟨pop32_in_range, pop32_out_of_range, fun hm fits => pop32_after_push32 hm v fits⟩

end Sys2Proof.Machine
end

section
/-! A store into code (R57, R227). -/

namespace Sys2Proof.Machine

/-- MOV to an absolute address in range stores the word and goes on (R71, R101). -/
theorem exec_movRm32Imm32_absolute {s : State} {a : Word} (imm : Word) (fits : a.toNat + 3 < s.memSize) :
    exec (.movRm32Imm32 ⟨.m00, 0, 5, none, .disp32 a⟩ imm) s = .next ((s.storeWord a.toNat imm).advance 10) := by
  have store : setRm32 ⟨.m00, 0, 5, none, .disp32 a⟩ imm s = .ok (s.storeWord a.toNat imm) := memWrite32_in_range fits
  simp only [exec, execMovRm32Imm32, store]
  rfl

/-- A machine that is Running with a one-byte instruction's opcode at pc holds the instruction. -/
theorem State.Holds.of_byte {s : State} {j : Instr} {b : Byte} (hj : encode j = [b]) (running : s.status = .running)
    (below : s.pc.toNat < s.memSize) (byte : Memory.read s.mem s.pc.toNat = b) : s.Holds j where
  running := running
  in_range := by simpa [hj] using below
  bytes k hk := by
    obtain rfl : k = 0 := by simpa [hj] using hk
    simpa [hj] using byte

/-- Settles O55: the store puts the instruction at the pc the step ends with, where the next step finds it. -/
theorem storedCodeIsFetchedNext : Obligations.StoredCodeIsFetchedNext := by
  intro s imm j hm holds hj code fits capacity
  have next : (s.pc + 10).toNat = s.pc.toNat + 10 := BitVec.toNat_add_of_lt (by simp; omega)
  have moved : s.pc + 10 ≠ 0 := by
    intro zero
    rw [zero] at next
    simp at next
  let t := (s.storeWord (s.pc + 10).toNat imm).advance 10
  have running : t.status = .running := holds.running
  have first : step s = .next t := by
    rw [step_of_holds rfl holds, exec_movRm32Imm32_absolute imm (by omega), afterExecute]
    exact congrArg Host.Outcome.next (if_neg fun halts => moved halts.2)
  have below : t.pc.toNat < t.memSize := show (s.pc + 10).toNat < s.memSize by omega
  have second : t.Holds j := .of_byte code running below (Memory.read_writeWord hm _ imm (k := 0) (by decide))
  exact ⟨t, first, rfl, running, rfl, step_of_holds hj second⟩

end Sys2Proof.Machine
end

section
/-! The round trip of decoding and encoding, and the length of an encoding (R61, R68, R84). -/

namespace Sys2Proof

open Sys2Proof.Statements

/-- Settles O6: every part of an encoding is taken off again by the part of the decoder that reads it. -/
theorem decodeOfEncodeIsTheInstruction : Obligations.DecodeOfEncodeIsTheInstruction :=
  fun _ rest hi => decode_encode_append hi rest

/-- Settles O7: every part of the decoder takes exactly the encoding of what it answers. -/
theorem encodeOfDecodeIsTheBytes : Obligations.EncodeOfDecodeIsTheBytes :=
  fun _ _ _ h => decode_ok h

/-- An encoding is as long as the table says: the opcode, the ModRM region if there is one, the immediate (R68, R84). -/
theorem encode_length {i : Instr} (hi : i.wf = true) : (encode i).length = i.length := by
  have operand {d : Descriptor} (hd : d.wf = true) {opcode : Byte} {imm : List Byte} {n : Nat} (hn : imm.length + 1 = n) :
      (opcode :: (encodeModRM d ++ imm)).length = n + d.length := by
    rw [List.length_cons, List.length_append, encodeModRM_length hd]
    omega
  have operandAlone {d : Descriptor} (hd : d.wf = true) {opcode : Byte} :
      (opcode :: encodeModRM d).length = 1 + d.length := by
    rw [List.length_cons, encodeModRM_length hd, Nat.add_comm]
  cases i with
  | movRm32Imm32 d imm => exact operand hi rfl
  | movRm32R32 d => exact operandAlone hi
  | movR32Rm32 d => exact operandAlone hi
  | addRm32R32 d => exact operandAlone hi
  | addRm32Imm8 d imm => exact operand (Bool.and_eq_true_iff.1 hi).1 rfl
  | subRm32Imm8 d imm => exact operand (Bool.and_eq_true_iff.1 hi).1 rfl
  | incRm32 d => exact operandAlone (Bool.and_eq_true_iff.1 hi).1
  | movR32Imm32 | pushR32 | pushImm32 | pushImm8 | popR32 | leave | callRel32 | ret | jmpRel8 | jmpRel32 => rfl

/-- No encoding is empty: it begins with an opcode (R60). -/
theorem encode_ne_nil (i : Instr) : encode i ≠ [] := by
  cases i <;> exact List.cons_ne_nil _ _

/-- Settles O8: the length by the table is the number of bytes, which is positive and at most what the decoder takes. -/
theorem encodingLengthIsTheTables : Obligations.EncodingLengthIsTheTables := by
  intro i hi
  rw [← encode_length hi]
  exact ⟨rfl, List.length_pos_iff.2 (encode_ne_nil i), encode_length_le hi⟩

end Sys2Proof
end

section
/-! The ModRM region: its fields, its displacement and its bytes (R63 to R69). -/

namespace Sys2Proof

/-- The operand decoder needs six bytes at most and rejects none of the 256 ModRM values (R64, R70). -/
theorem decodeModRM_total {bytes : List Byte} (h : 6 ≤ bytes.length) : ∃ p, decodeModRM bytes = .ok p := by
  have taken := decodeModRM_takesAtMost bytes
  cases hd : decodeModRM bytes with
  | ok p => exact ⟨p, rfl⟩
  | error e =>
    rw [hd] at taken
    exact absurd (taken (decodeModRM_error hd)) (Nat.not_lt.2 h)

/-- The region of an accepted descriptor begins with the byte its fields make (R64). -/
theorem decodeModRM_first {b : Byte} {bytes rest : List Byte} {d : Descriptor}
    (h : decodeModRM (b :: bytes) = .ok (d, rest)) : b = modRMByte d.mode d.reg d.rm :=
  (List.cons.inj (decodeModRM_ok h).2).1

/-- Settles O9: the byte is the one its fields make, and a byte's fields are unique. -/
theorem modRMByteFieldsAreExtracted : Obligations.ModRMByteFieldsAreExtracted := by
  refine fun b bytes => ⟨fun d rest h => ?_, fun five => ?_⟩
  · have first := decodeModRM_first h
    obtain ⟨hmode, hreg, hrm⟩ := modRMByte_fields d.mode d.reg d.rm
    rw [← first] at hmode hreg hrm
    exact ⟨by rw [← hmode, Mode.bits_ofBits], hreg.symm, hrm.symm, first⟩
  · obtain ⟨⟨d, rest⟩, h⟩ := decodeModRM_total (bytes := b :: bytes) (Nat.succ_le_succ five)
    exact ⟨d, rest, h, (decodeModRM_ok h).1⟩

/-- The bytes of an assembled word are the bytes it was made of, in order (R43, R44). -/
theorem wordBytes_wordOfBytes (b0 b1 b2 b3 : Byte) : wordBytes (wordOfBytes b0 b1 b2 b3) = [b0, b1, b2, b3] := by
  obtain ⟨h0, h1, h2, h3⟩ := byteOfWord_wordOfBytes b0 b1 b2 b3
  rw [wordBytes, h0, h1, h2, h3]

/-- A region written out field by field decodes to its fields, when the SIB byte and the displacement are those of its form
(R65 to R67). -/
theorem decodeModRM_form {mode : Mode} {reg rm : BitVec 3} {sib : List Byte} {disp : Disp} (rest : List Byte)
    (hsib : if mode ≠ .m11 ∧ rm = 4 then sib.length = 1 else sib = [])
    (hdisp : (⟨mode, reg, rm, sib.head?, disp⟩ : Descriptor).dispOk = true) :
    decodeModRM (modRMByte mode reg rm :: (sib ++ (disp.bytes ++ rest))) = .ok (⟨mode, reg, rm, sib.head?, disp⟩, rest) := by
  have sibOk : (⟨mode, reg, rm, sib.head?, disp⟩ : Descriptor).sibOk = true ∧ sib.head?.toList = sib := by
    split at hsib
    · rename_i escape
      obtain ⟨b, rfl⟩ := List.length_eq_one_iff.1 hsib
      simp [Descriptor.sibOk, escape]
    · rename_i noEscape
      subst hsib
      simpa [Descriptor.sibOk, imp_iff_not_or] using noEscape
  have wf : (⟨mode, reg, rm, sib.head?, disp⟩ : Descriptor).wf = true := Bool.and_eq_true_iff.2 ⟨sibOk.1, hdisp⟩
  simpa [encodeModRM, sibOk.2] using decodeModRM_encodeModRM rest wf

/-- Settles O10: each clause is the region of a form with the displacement the form has. -/
theorem displacementIsReadByModeAndRm : Obligations.DisplacementIsReadByModeAndRm := by
  intro mode reg rm sib b0 b1 b2 b3 rest hsib
  refine ⟨fun wide => ?_, fun narrow => ?_, fun without => ?_⟩
  · have dispOk : (⟨mode, reg, rm, sib.head?, .disp32 (wordOfBytes b0 b1 b2 b3)⟩ : Descriptor).dispOk = true := by
      rcases wide with ⟨rfl, rfl⟩ | rfl <;> rfl
    have := decodeModRM_form rest hsib dispOk
    rwa [Disp.bytes, wordBytes_wordOfBytes] at this
  · exact decodeModRM_form (disp := .disp8 b0) rest hsib (by subst narrow; rfl)
  · refine decodeModRM_form (disp := .none) rest hsib ?_
    rcases without with ⟨rfl, notAbsolute⟩ | rfl
    · exact bne_iff_ne.2 notAbsolute
    · rfl

/-- Settles O11: the region is the encoding of the descriptor. -/
theorem descriptorDependsOnItsRegionAlone : Obligations.DescriptorDependsOnItsRegionAlone := by
  intro bytes d rest h
  obtain ⟨wf, front⟩ := decodeModRM_ok h
  exact ⟨encodeModRM d, front, encodeModRM_length wf, fun other => decodeModRM_encodeModRM other wf⟩

end Sys2Proof
end

section
/-! The dispatch table (R79, R82), the group opcodes' rejections (R80) and the length its slots give an encoding (R84). -/

namespace Sys2Proof

open Sys2Proof.Statements

/-- A slot is absent exactly for the opcodes R82 lists. -/
theorem dispatch_eq_none_iff (opcode : Byte) : dispatch opcode = none ↔ absentOpcode opcode.toNat := by
  unfold absentOpcode
  revert opcode
  decide

/-- Settles O12: the absent slots, the OP+r ranges by register, and the slots of one opcode each. -/
theorem dispatchTableIsTheSpecs : Obligations.DispatchTableIsTheSpecs := by
  refine ⟨dispatch_eq_none_iff, fun r => ?_, by decide⟩
  simpa only [opcodeWithReg, Reg.bits_ofBits] using Laws.OpcodeDispatched.dispatch_opcodeWithReg (Reg.ofBits r)

/-- Settles O13: the model's decoder evaluates to each of the instructions. -/
theorem specWordsDecode : Obligations.SpecWordsDecode :=
  ⟨rfl, rfl, rfl, rfl, rfl, rfl, rfl, rfl, rfl, rfl, rfl, rfl, rfl, rfl, rfl⟩

/-- A group opcode whose reg field selects no operation is rejected after its ModRM region, whatever follows (R80, R192). -/
theorem decode_unsupported {d : Descriptor} (hd : d.wf = true) (rest : List Byte) (nonzero : d.reg ≠ 0) :
    (d.reg ≠ 5 → decode (0x83 :: (encodeModRM d ++ rest)) = .error (.extension 0x83 d.reg)) ∧
    decode (0xFF :: (encodeModRM d ++ rest)) = .error (.extension 0xFF d.reg) := by
  have group83 : dispatch 0x83 = some .group83 := by decide
  have groupFF : dispatch 0xFF = some .groupFF := by decide
  refine ⟨fun notSub => ?_, ?_⟩
  · simp only [decode, group83, decodeOperands, decodeModRM_encodeModRM rest hd, bind, Except.bind, if_neg nonzero,
      if_neg notSub]
  · simp only [decode, groupFF, decodeOperands, decodeModRM_encodeModRM rest hd, bind, Except.bind, if_neg nonzero]

/-- The OP+r ranges of the dispatch table (R79). -/
theorem dispatch_range (opcode : Byte) :
    (0x50 ≤ opcode.toNat ∧ opcode.toNat ≤ 0x57 → dispatch opcode = some .pushR32) ∧
    (0x58 ≤ opcode.toNat ∧ opcode.toNat ≤ 0x5F → dispatch opcode = some .popR32) ∧
    (0xB8 ≤ opcode.toNat ∧ opcode.toNat ≤ 0xBF → dispatch opcode = some .movR32Imm32) := by
  revert opcode
  decide

/-- The table of R68 read off the ModRM byte is the model's. -/
theorem modRMByteLength_eq_regionLength (modrm : Byte) : modRMByteLength modrm = regionLength modrm := by
  revert modrm
  decide

/-- The slot of an encoding's opcode gives the encoding its length, with the ModRM byte or, where there is none, whatever byte
follows (R84). -/
theorem encodingLength_encode {i : Instr} {opcode modrm : Byte} {bytes rest : List Byte}
    (h : opcode :: bytes = encode i ++ rest) (next : bytes.head? = none ∨ bytes.head? = some modrm) :
    encodingLength opcode modrm = some i.length := by
  have slot {b : Byte} {tail : List Byte} {hd : Handler} (hslot : dispatch b = some hd)
      (front : opcode :: bytes = b :: tail) : encodingLength opcode modrm = some (handlerLength hd modrm) := by
    rw [(List.cons.inj front).1]
    exact encodingLength_populated hslot modrm
  have region {b : Byte} {d : Descriptor} {tail : List Byte} (front : opcode :: bytes = b :: (encodeModRM d ++ tail)) :
      modRMByteLength modrm = d.length := by
    rw [(List.cons.inj front).2] at next
    obtain rfl : modRMByte d.mode d.reg d.rm = modrm := by simpa [encodeModRM] using next
    exact modRMByteLength_modRMByte d.mode d.reg d.rm
  have operand {b : Byte} {d : Descriptor} {tail : List Byte} {hd : Handler} {n : Nat} (hslot : dispatch b = some hd)
      (hlen : handlerLength hd modrm = n + modRMByteLength modrm) (front : opcode :: bytes = b :: (encodeModRM d ++ tail)) :
      encodingLength opcode modrm = some (n + d.length) := by
    rw [slot hslot front, hlen, region front]
  cases i with
  | movRm32Imm32 d imm => exact operand (b := 0xC7) (hd := .movRm32Imm32) (by decide) rfl (by simpa [encode] using h)
  | movRm32R32 d => exact operand (hd := .movRm32R32) (by decide) rfl h
  | movR32Rm32 d => exact operand (hd := .movR32Rm32) (by decide) rfl h
  | addRm32R32 d => exact operand (hd := .addRm32R32) (by decide) rfl h
  | addRm32Imm8 d imm => exact operand (b := 0x83) (hd := .group83) (by decide) rfl (by simpa [encode] using h)
  | subRm32Imm8 d imm => exact operand (b := 0x83) (hd := .group83) (by decide) rfl (by simpa [encode] using h)
  | incRm32 d => exact operand (hd := .groupFF) (by decide) rfl h
  | movR32Imm32 r imm => exact slot (Laws.OpcodeDispatched.dispatch_opcodeWithReg r).2.2 h
  | pushR32 r => exact slot (Laws.OpcodeDispatched.dispatch_opcodeWithReg r).1 h
  | popR32 r => exact slot (Laws.OpcodeDispatched.dispatch_opcodeWithReg r).2.1 h
  | pushImm32 imm => exact slot (hd := .pushImm32) (by decide) h
  | pushImm8 imm => exact slot (hd := .pushImm8) (by decide) h
  | leave => exact slot (hd := .leave) (by decide) h
  | callRel32 rel => exact slot (hd := .callRel32) (by decide) h
  | ret => exact slot (hd := .ret) (by decide) h
  | jmpRel8 rel => exact slot (hd := .shortJump) (by decide) h
  | jmpRel32 rel => exact slot (hd := .nearJump) (by decide) h

/-- A length given by the opcode and the ModRM byte is 1 to 11 (R84). -/
theorem encodingLength_bounds {opcode modrm : Byte} {n : Nat} (h : encodingLength opcode modrm = some n) :
    1 ≤ n ∧ n ≤ 11 := by
  obtain ⟨hd, -, rfl⟩ := Option.map_eq_some_iff.1 h
  exact handlerLength_bounds hd modrm

/-- Settles O60: the rows of R84 are the dispatch slots with their handlers' lengths, and the decoder takes an encoding. -/
theorem opcodeAndModRMTellTheLength : Obligations.OpcodeAndModRMTellTheLength := by
  intro opcode modrm
  obtain ⟨push, pop, mov⟩ := dispatch_range opcode
  rw [← modRMByteLength_eq_regionLength]
  refine ⟨encodingLength_eq_none.trans (dispatch_eq_none_iff opcode), ?_, ?_, ?_, ?_, ?_, ?_, ?_, ?_⟩
  · rintro (⟨low, high⟩ | rfl | rfl)
    · by_cases half : opcode.toNat ≤ 0x57
      · exact encodingLength_populated (push ⟨low, half⟩) modrm
      · exact encodingLength_populated (pop ⟨Nat.lt_of_not_le half, high⟩) modrm
    · exact encodingLength_populated (h := .ret) (by decide) modrm
    · exact encodingLength_populated (h := .leave) (by decide) modrm
  · rintro (rfl | rfl)
    · exact encodingLength_populated (h := .pushImm8) (by decide) modrm
    · exact encodingLength_populated (h := .shortJump) (by decide) modrm
  · rintro (rfl | range | rfl | rfl)
    · exact encodingLength_populated (h := .pushImm32) (by decide) modrm
    · exact encodingLength_populated (mov range) modrm
    · exact encodingLength_populated (h := .callRel32) (by decide) modrm
    · exact encodingLength_populated (h := .nearJump) (by decide) modrm
  · rintro (rfl | rfl | rfl | rfl)
    · exact encodingLength_populated (h := .addRm32R32) (by decide) modrm
    · exact encodingLength_populated (h := .movRm32R32) (by decide) modrm
    · exact encodingLength_populated (h := .movR32Rm32) (by decide) modrm
    · exact encodingLength_populated (h := .groupFF) (by decide) modrm
  · rintro rfl
    exact encodingLength_populated (h := .group83) (by decide) modrm
  · rintro rfl
    exact encodingLength_populated (h := .movRm32Imm32) (by decide) modrm
  · exact fun n => encodingLength_bounds
  · intro bytes i rest next h
    obtain ⟨wf, front⟩ := decode_ok h
    exact ⟨encodingLength_encode front next, by simpa [encode_length wf] using congrArg List.length front⟩

end Sys2Proof
end

section
/-! The operand forms and the faults of the encoding: the effective address, the SIB escape, mode 11 and the unsupported
extensions (R71 to R76, R80). -/

namespace Sys2Proof.Machine

/-- Settles O19: the effective address, form by form. -/
theorem effectiveAddressByMode : Obligations.EffectiveAddressByMode := by
  refine fun d s => ⟨effectiveAddress_sib, fun v hm hr hv => ?_, fun hm h4 h5 => ?_, fun v hm hr hv => ?_,
    fun v hm hr hv => ?_, effectiveAddress_direct⟩
  · simp [effectiveAddress, hm, hr, hv, Disp.value]
  · simp only [effectiveAddress, hm, if_neg h4, if_neg h5]
  · simp only [effectiveAddress, hm, if_neg hr, hv, Disp.value, add32, sext32]
  · simp only [effectiveAddress, hm, if_neg hr, hv, Disp.value, add32]

/-- Settles O20: the register in mode 11; elsewhere the word access in sequence after the effective address. -/
theorem rmOperandByMode : Obligations.RmOperandByMode := by
  refine fun d s v => ⟨fun hm => ⟨getRm32_direct hm, setRm32_direct hm⟩, fun hm a ha => ?_, fun hm e he => ?_⟩
  · rw [getRm32_memory hm, setRm32_memory hm, ha]
    exact ⟨rfl, rfl⟩
  · rw [getRm32_memory hm, setRm32_memory hm, he]
    exact ⟨rfl, rfl⟩

section
variable {d : Descriptor} {s : State} (hm : d.mode ≠ .m11) (hr : d.rm = 4)
include hm hr

/-- A rule that begins by reading an SIB form ends with the escape (R72). -/
theorem finish_getRm32_sib (f : Word → Except Raised State) :
    finish (getRm32 d s >>= f) = .next (takeFault (.unsupportedAddressingForm d.mode 4 s.pc) s) := by
  rw [getRm32_memory hm, effectiveAddress_sib hm hr]
  rfl

/-- A rule that begins by writing an SIB form ends with the escape (R72). -/
theorem finish_setRm32_sib (v : Word) (f : State → Except Raised State) :
    finish (setRm32 d v s >>= f) = .next (takeFault (.unsupportedAddressingForm d.mode 4 s.pc) s) := by
  rw [setRm32_memory hm, effectiveAddress_sib hm hr]
  rfl

end

/-- Settles O21: each of the seven rules begins with an access of its r/m operand. -/
theorem sibEscapeStopsEveryRmInstruction : Obligations.SibEscapeStopsEveryRmInstruction := by
  intro i d s hd hm hr
  cases i <;> cases hd
  case movRm32Imm32 imm => exact finish_setRm32_sib hm hr imm _
  case movRm32R32 => exact finish_setRm32_sib hm hr (getR32 d s) _
  case movR32Rm32 => exact finish_getRm32_sib hm hr _
  case addRm32R32 => exact finish_getRm32_sib hm hr _
  case addRm32Imm8 => exact finish_getRm32_sib hm hr _
  case subRm32Imm8 => exact finish_getRm32_sib hm hr _
  case incRm32 => exact finish_getRm32_sib hm hr _

/-- Settles O22: an instruction completes with the status it had, or takes a fault that fits, which mode 11 does not. -/
theorem noInstructionAddressesModeEleven : Obligations.NoInstructionAddressesModeEleven := by
  intro i s t running h rm pc direct
  rcases exec_cases i s with ⟨u, hu, v, p, wrote, rfl⟩ | ⟨f, u, hu, fits, -⟩
  · obtain rfl : v.setPc p = t := by simpa [hu] using h
    have kept : v.status = .running := wrote.status.trans running
    simp [kept] at direct
  · obtain rfl : takeFault f u = t := by simpa [hu] using h
    obtain rfl : f = .unsupportedAddressingForm .m11 rm pc := by simpa using direct
    obtain ⟨-, memoryMode, -⟩ := fits
    exact memoryMode rfl

/-- An opcode and a ModRM region that stand at pc are the front of the fetch window (R48, R68). -/
theorem fetchWindow_region {s : State} {d : Descriptor} {opcode : Byte} (hd : d.wf = true)
    (hin : s.pc.toNat + 1 + (encodeModRM d).length ≤ s.memSize) (hop : Memory.read s.mem s.pc.toNat = opcode)
    (hbytes : ∀ k (h : k < (encodeModRM d).length), Memory.read s.mem (s.pc.toNat + 1 + k) = (encodeModRM d)[k]) :
    ∃ rest, fetchWindow s = opcode :: (encodeModRM d ++ rest) := by
  have short : (encodeModRM d).length ≤ 6 := by
    rw [encodeModRM_length hd]
    exact (modRMLength_bounds d.mode d.rm).2
  refine fetchWindow_prefix (bytes := opcode :: encodeModRM d) ?_ ?_ fun k hk => ?_
  · simp only [List.length_cons, maxLength]
    omega
  · simp only [List.length_cons]
    omega
  · cases k with
    | zero => exact hop
    | succ k =>
      rw [show s.pc.toNat + (k + 1) = s.pc.toNat + 1 + k by omega]
      exact hbytes k (Nat.lt_of_succ_lt_succ hk)

/-- Settles O18: the decoder rejects the reg field with the opcode and the ModRM region alone in the window. -/
theorem unsupportedExtensionStopsWithStateUnchanged : Obligations.UnsupportedExtensionStopsWithStateUnchanged := by
  refine fun s d running hd hin hbytes => ⟨fun hop nonzero notSub => ?_, fun hop nonzero => ?_⟩
  · obtain ⟨rest, window⟩ := fetchWindow_region hd hin hop hbytes
    exact step_of_decode_error running (window ▸ (decode_unsupported hd rest nonzero).1 notSub)
  · obtain ⟨rest, window⟩ := fetchWindow_region hd hin hop hbytes
    exact step_of_decode_error running (window ▸ (decode_unsupported hd rest nonzero).2)

end Sys2Proof.Machine
end

section
/-! The rules of MOV (R100 to R103): what an access of the r/m operand gives in each form, and what the rule that begins with
it then leaves. -/

namespace Sys2Proof.Machine

/-- A form with an effective address is not mode 11 (R73). -/
theorem mode_ne_of_effectiveAddress {d : Descriptor} {s : State} {a : Word} (ha : effectiveAddress d s = .ok a) :
    d.mode ≠ .m11 := by
  intro hm
  rw [effectiveAddress_direct hm] at ha
  cases ha

/-- The ModRM region of mode 11 is the ModRM byte (R68). -/
theorem Descriptor.length_direct {d : Descriptor} (hm : d.mode = .m11) : d.length = 1 := by
  rw [Descriptor.length, hm, modRMLength]

/-- The state after a word store of which only the bytes below the capacity land: the whole store when it fits, and what is
left of one that does not (R44, D9). -/
def State.storeBelow (s : State) (a : Nat) (v : Word) : State :=
  { s with mem := Memory.writeBelow s.memSize s.mem a (wordBytes v) }

section
variable {d : Descriptor} {s : State} {a : Word} (ha : effectiveAddress d s = .ok a)
include ha

/-- Reading the word at an effective address it fits at (R75). -/
theorem getRm32_in_range (fits : a.toNat + 3 < s.memSize) : getRm32 d s = .ok (Memory.readWord s.mem a.toNat) := by
  rw [getRm32_memory (mode_ne_of_effectiveAddress ha), ha]
  exact memRead32_in_range fits

/-- Reading at an effective address no word fits at (R42, R75). -/
theorem getRm32_out_of_range (out : s.memSize ≤ a.toNat + 3) :
    getRm32 d s = .error ⟨.outOfRange (max a.toNat s.memSize) s.pc, s⟩ := by
  rw [getRm32_memory (mode_ne_of_effectiveAddress ha), ha]
  exact memRead32_out_of_range out

/-- Writing the word at an effective address it fits at (R76). -/
theorem setRm32_in_range (v : Word) (fits : a.toNat + 3 < s.memSize) :
    setRm32 d v s = .ok (s.storeWord a.toNat v) := by
  rw [setRm32_memory (mode_ne_of_effectiveAddress ha), ha]
  exact memWrite32_in_range fits

/-- Writing at an effective address no word fits at (R44, R76, D9). -/
theorem setRm32_out_of_range (v : Word) (out : s.memSize ≤ a.toNat + 3) :
    setRm32 d v s = .error ⟨.outOfRange (max a.toNat s.memSize) s.pc, s.storeBelow a.toNat v⟩ := by
  rw [setRm32_memory (mode_ne_of_effectiveAddress ha), ha]
  exact memWrite32_out_of_range out

/-- A rule that begins by reading where no word fits stops there with nothing written (R42, R189). -/
theorem finish_getRm32_out_of_range (out : s.memSize ≤ a.toNat + 3) (f : Word → Except Raised State) :
    finish (getRm32 d s >>= f) = .next (s.stopOutOfRange a.toNat) := by
  rw [getRm32_out_of_range ha out]
  rfl

/-- The end of a rule that stores a word that fits (R101, R102). -/
theorem finish_setRm32_in_range (v : Word) (n : Nat) (fits : a.toNat + 3 < s.memSize) :
    finish (setRm32 d v s >>= fun u => .ok (u.advance n)) = .next ((s.storeWord a.toNat v).advance n) := by
  rw [setRm32_in_range ha v fits]
  rfl

/-- The end of a rule that stores a word that does not fit (R101, R102, D9). -/
theorem finish_setRm32_out_of_range (v : Word) (n : Nat) (out : s.memSize ≤ a.toNat + 3) :
    finish (setRm32 d v s >>= fun u => .ok (u.advance n)) = .next ((s.storeBelow a.toNat v).stopOutOfRange a.toNat) := by
  rw [setRm32_out_of_range ha v out]
  rfl

end

/-- The end of a rule that writes a register operand: `n` bytes beside the ModRM byte (R101, R102). -/
theorem finish_setRm32_direct {d : Descriptor} {s : State} (hm : d.mode = .m11) (v : Word) (n : Nat) :
    finish (setRm32 d v s >>= fun u => .ok (u.advance (n + d.length))) =
      .next ((s.setReg (Reg.ofBits d.rm) v).advance (n + 1)) := by
  rw [setRm32_direct hm, Descriptor.length_direct hm]
  rfl

/-- Settles O24: the rule is a write of the r/m operand, in each of its forms. -/
theorem movRmImmediate : Obligations.MovRmImmediate := fun _ imm _ =>
  ⟨rfl, fun hm => finish_setRm32_direct hm imm 5, fun _ ha fits => finish_setRm32_in_range ha imm _ fits,
    fun _ ha out => finish_setRm32_out_of_range ha imm _ out⟩

/-- Settles O25: the rule is a write of the r/m operand, in each of its forms. -/
theorem movRmRegister : Obligations.MovRmRegister := fun d s =>
  ⟨rfl, fun hm => finish_setRm32_direct hm (getR32 d s) 1,
    fun _ ha fits => finish_setRm32_in_range ha (getR32 d s) _ fits,
    fun _ ha out => finish_setRm32_out_of_range ha (getR32 d s) _ out⟩

/-- MOV r32, r/m32 after a read that succeeded (R103). -/
theorem exec_movR32Rm32_of_getRm32 {d : Descriptor} {s : State} {v : Word} (h : getRm32 d s = .ok v) :
    exec (.movR32Rm32 d) s = .next ((s.setReg (Reg.ofBits d.reg) v).advance (1 + d.length)) := by
  simp only [exec, execMovR32Rm32, h]
  rfl

/-- Settles O26: the rule begins with a read of the r/m operand, and each fault is the read's or the fetch's. -/
theorem movRegisterRm : Obligations.MovRegisterRm := by
  intro d s
  refine ⟨rfl, fun hm => ?_, fun a ha fits => ?_, fun a ha out => ?_, fun hm hr => ?_, fun hd cut => ?_⟩
  · rw [exec_movR32Rm32_of_getRm32 (getRm32_direct hm), Descriptor.length_direct hm]
    rfl
  · exact exec_movR32Rm32_of_getRm32 (getRm32_in_range ha fits)
  · exact finish_getRm32_out_of_range ha out _
  · exact finish_getRm32_sib hm hr _
  · exact instructionCutShortFaults s (.movR32Rm32 d) hd cut

/-- Settles O23: the rule is one register write; the cut-short immediate is a case of the fetch. -/
theorem movRegisterImmediate : Obligations.MovRegisterImmediate := fun _ _ s =>
  ⟨rfl, rfl, instructionCutShortFaults s _ rfl⟩

end Sys2Proof.Machine
end

section
/-! Frames (R30, R44, R100 to R103, R120 to R124): an instruction ends in the state its writes made, with a new pc or with a
fault taken, so its frame is that of its writes. -/

namespace Sys2Proof.Machine

open Sys2Proof.Statements

/-- The outcome of a rule whose writes made a state that meets `P`: that state with a new pc, or with a fault taken (R12). -/
def EndsFrom (P : State → Prop) (o : Host.Outcome State Fault Refusal) : Prop :=
  ∃ u, P u ∧ ((∃ p, o = .next (u.setPc p)) ∨ ∃ f, o = .next (takeFault f u))

/-- Neither end of a rule touches a register, memory, the flags word or the capacity. -/
theorem EndsFrom.frame {P : State → Prop} {o : Host.Outcome State Fault Refusal} {t : State} (h : EndsFrom P o)
    (ht : o = .next t) : ∃ u, P u ∧ t.regs = u.regs ∧ t.mem = u.mem ∧ restUnchanged u t := by
  subst ht
  obtain ⟨u, hu, ⟨p, ht⟩ | ⟨f, ht⟩⟩ := h
  · cases ht
    exact ⟨u, hu, rfl, rfl, rfl, rfl, .inl rfl⟩
  · cases ht
    exact ⟨u, hu, rfl, rfl, rfl, rfl, .inr ⟨f, rfl⟩⟩

theorem EndsFrom.mono {P Q : State → Prop} {o : Host.Outcome State Fault Refusal} (h : EndsFrom P o)
    (hPQ : ∀ u, P u → Q u) : EndsFrom Q o := by
  obtain ⟨u, hu, ends⟩ := h
  exact ⟨u, hPQ u hu, ends⟩

/-- Reading the r/m operand changes nothing, whether or not it faults (R75, R189). -/
theorem getRm32_cases (d : Descriptor) (s : State) :
    (∃ v, getRm32 d s = .ok v) ∨ ∃ f, getRm32 d s = .error ⟨f, s⟩ := by
  by_cases hm : d.mode = .m11
  · exact .inl ⟨_, getRm32_direct hm⟩
  by_cases hr : d.rm = 4
  · exact .inr ⟨_, by rw [getRm32_memory hm, effectiveAddress_sib hm hr]; rfl⟩
  obtain ⟨a, ha⟩ := effectiveAddress_memory (s := s) hm hr
  by_cases fits : a.toNat + 3 < s.memSize
  · exact .inl ⟨_, getRm32_in_range ha fits⟩
  · exact .inr ⟨_, getRm32_out_of_range ha (Nat.le_of_not_lt fits)⟩

/-- The states a write of the r/m operand can leave: nothing written, the register written, or the word at the effective
address, as far as it fits (R76, D9). -/
inductive RmWritten (d : Descriptor) (s : State) : State → Prop
  | nothing : RmWritten d s s
  | register (hm : d.mode = .m11) (v : Word) : RmWritten d s (s.setReg (Reg.ofBits d.rm) v)
  | memory {a : Word} (ha : effectiveAddress d s = .ok a) (v : Word) : RmWritten d s (s.storeBelow a.toNat v)

/-- What a write of the r/m operand can do, faults included. -/
theorem setRm32_cases (d : Descriptor) (v : Word) (s : State) :
    ∃ u, RmWritten d s u ∧ (setRm32 d v s = .ok u ∨ ∃ f, setRm32 d v s = .error ⟨f, u⟩) := by
  by_cases hm : d.mode = .m11
  · exact ⟨_, .register hm v, .inl (setRm32_direct hm)⟩
  by_cases hr : d.rm = 4
  · exact ⟨s, .nothing, .inr ⟨_, by rw [setRm32_memory hm, effectiveAddress_sib hm hr]; rfl⟩⟩
  obtain ⟨a, ha⟩ := effectiveAddress_memory (s := s) hm hr
  refine ⟨_, .memory ha v, ?_⟩
  by_cases fits : a.toNat + 3 < s.memSize
  · refine .inl ?_
    rw [setRm32_in_range ha v fits, State.storeBelow, Memory.writeBelow_wordBytes s.mem v fits]
    rfl
  · exact .inr ⟨_, setRm32_out_of_range ha v (Nat.le_of_not_lt fits)⟩

/-- The shape the two MOV stores share: write the operand, go on (R101, R102). -/
theorem setRm32_endsFrom (d : Descriptor) (v : Word) (n : Nat) (s : State) :
    EndsFrom (RmWritten d s) (finish (setRm32 d v s >>= fun u => .ok (u.advance n))) := by
  obtain ⟨u, written, h | ⟨f, h⟩⟩ := setRm32_cases d v s
  · exact ⟨u, written, .inl ⟨_, by rw [h]; rfl⟩⟩
  · exact ⟨u, written, .inr ⟨f, by rw [h]; rfl⟩⟩

/-- The shape ADD, SUB and INC share: read the operand, write a value made of it back, go on (R120 to R123). -/
theorem updateRm32_endsFrom (d : Descriptor) (f : Word → Word) (n : Nat) (s : State) :
    EndsFrom (RmWritten d s)
      (finish (getRm32 d s >>= fun a => setRm32 d (f a) s >>= fun u => .ok (u.advance n))) := by
  obtain ⟨a, h⟩ | ⟨fault, h⟩ := getRm32_cases d s
  · rw [h]
    exact setRm32_endsFrom d (f a) n s
  · exact ⟨s, .nothing, .inr ⟨fault, by rw [h]; rfl⟩⟩

/-- The six instructions with an r/m destination write that operand alone, whatever its mode. -/
theorem exec_endsFrom_rmWritten {i : Instr} {d : Descriptor} (hi : memoryDestination i = some d) (s : State) :
    EndsFrom (RmWritten d s) (exec i s) := by
  cases i <;> cases hi
  case movRm32Imm32 imm => exact setRm32_endsFrom d imm _ s
  case movRm32R32 => exact setRm32_endsFrom d (getR32 d s) _ s
  case addRm32R32 => exact updateRm32_endsFrom d (add32 · (getR32 d s)) _ s
  case addRm32Imm8 imm => exact updateRm32_endsFrom d (add32 · (sext32 imm)) _ s
  case subRm32Imm8 imm => exact updateRm32_endsFrom d (sub32 · (sext32 imm)) _ s
  case incRm32 => exact updateRm32_endsFrom d (add32 · 1) _ s

/-- The states a write of the register `dest` can leave, a fault before it included. -/
def RegWritten (dest : Reg) (s u : State) : Prop := u = s ∨ ∃ v, u = s.setReg dest v

/-- In mode 11 the r/m operand is a register (R73, R76). -/
theorem RmWritten.regWritten {d : Descriptor} {s u : State} (hm : d.mode = .m11) (h : RmWritten d s u) :
    RegWritten (Reg.ofBits d.rm) s u := by
  cases h with
  | nothing => exact .inl rfl
  | register _ v => exact .inr ⟨v, rfl⟩
  | memory ha => exact absurd hm (mode_ne_of_effectiveAddress ha)

/-- MOV r32, r/m32 writes the register of the reg field alone, whatever the mode (R103). -/
theorem exec_movR32Rm32_endsFrom (d : Descriptor) (s : State) :
    EndsFrom (RegWritten (Reg.ofBits d.reg) s) (exec (.movR32Rm32 d) s) := by
  obtain ⟨v, h⟩ | ⟨f, h⟩ := getRm32_cases d s
  · exact ⟨_, .inr ⟨v, rfl⟩, .inl ⟨_, exec_movR32Rm32_of_getRm32 h⟩⟩
  · exact ⟨s, .inl rfl, .inr ⟨f, by simp only [exec, execMovR32Rm32, h]; rfl⟩⟩

/-- A register destination is that of one of the two MOV loads, or an r/m destination in mode 11. -/
theorem registerDestination_cases {i : Instr} {dest : Reg} (hi : registerDestination i = some dest) :
    (∃ imm, i = .movR32Imm32 dest imm) ∨ (∃ d, i = .movR32Rm32 d ∧ Reg.ofBits d.reg = dest) ∨
    ∃ d, memoryDestination i = some d ∧ d.mode = .m11 ∧ Reg.ofBits d.rm = dest := by
  have direct {d : Descriptor} (h : (if d.mode = .m11 then some (Reg.ofBits d.rm) else none) = some dest) :
      d.mode = .m11 ∧ Reg.ofBits d.rm = dest := by
    simpa using h
  cases i with
  | movR32Imm32 r imm => cases hi; exact .inl ⟨imm, rfl⟩
  | movR32Rm32 d => cases hi; exact .inr (.inl ⟨d, rfl, rfl⟩)
  | movRm32Imm32 d _ | movRm32R32 d | addRm32R32 d | addRm32Imm8 d _ | subRm32Imm8 d _ | incRm32 d =>
    exact .inr (.inr ⟨d, rfl, direct hi⟩)
  | pushR32 | pushImm32 | pushImm8 | popR32 | leave | callRel32 | ret | jmpRel8 | jmpRel32 => cases hi

/-- An instruction with a register destination writes that register alone. -/
theorem exec_endsFrom_regWritten {i : Instr} {dest : Reg} (hi : registerDestination i = some dest) (s : State) :
    EndsFrom (RegWritten dest s) (exec i s) := by
  obtain ⟨imm, rfl⟩ | ⟨d, rfl, rfl⟩ | ⟨d, hd, hm, rfl⟩ := registerDestination_cases hi
  · exact ⟨_, .inr ⟨imm, rfl⟩, .inl ⟨_, rfl⟩⟩
  · exact exec_movR32Rm32_endsFrom d s
  · exact (exec_endsFrom_rmWritten hd s).mono fun _ => RmWritten.regWritten hm

/-- Settles O41: the instruction ends from a write of its destination register. -/
theorem registerDestinationFrame : Obligations.RegisterDestinationFrame := by
  intro i dest s t hi h
  obtain ⟨u, written, hregs, hmem, rest⟩ := (exec_endsFrom_regWritten hi s).frame h
  simp only [State.getReg_eq, hregs, hmem]
  obtain rfl | ⟨v, rfl⟩ := written
  · exact ⟨fun _ _ => rfl, rest, fun _ => rfl⟩
  · exact ⟨fun _ hr => RegFile.get_set_other s.regs v hr, rest, fun _ => rfl⟩

/-- Settles O42: the instruction ends from a store at its effective address, or from nothing written. -/
theorem memoryDestinationFrame : Obligations.MemoryDestinationFrame := by
  intro i d s t hi hm h
  obtain ⟨u, written, hregs, hmem, rest⟩ := (exec_endsFrom_rmWritten hi s).frame h
  simp only [State.getReg_eq, hregs, hmem]
  cases written with
  | nothing => exact ⟨fun _ => rfl, rest, fun _ _ _ _ => rfl, fun _ _ => rfl⟩
  | register direct => exact absurd direct hm
  | @memory a ha v =>
    refine ⟨fun _ => rfl, rest, fun a' ha' b outside => ?_, fun noAddress => absurd ha (noAddress a)⟩
    obtain rfl : a = a' := by simpa [ha] using ha'
    exact Memory.read_writeBelow_other s.memSize s.mem a.toNat (wordBytes v) outside

end Sys2Proof.Machine
end

section
/-! The rules of ADD, SUB and INC (R120 to R123): the r/m operand is read, a value made of it is written back, and a rule
whose read faults stops there, so no store of it can fault. -/

namespace Sys2Proof.Machine

/-- The end of a rule that updates a register operand: `n` bytes beside the ModRM byte (R120 to R123). -/
theorem finish_updateRm32_direct {d : Descriptor} {s : State} (hm : d.mode = .m11) (f : Word → Word) (n : Nat) :
    finish (getRm32 d s >>= fun a => setRm32 d (f a) s >>= fun u => .ok (u.advance (n + d.length))) =
      .next ((s.setReg (Reg.ofBits d.rm) (f (s.getReg (Reg.ofBits d.rm)))).advance (n + 1)) := by
  rw [getRm32_direct hm]
  exact finish_setRm32_direct hm (f (s.getReg (Reg.ofBits d.rm))) n

/-- The end of a rule that updates a word at an effective address it fits at (R120 to R123). -/
theorem finish_updateRm32_in_range {d : Descriptor} {s : State} {a : Word} (ha : effectiveAddress d s = .ok a)
    (f : Word → Word) (n : Nat) (fits : a.toNat + 3 < s.memSize) :
    finish (getRm32 d s >>= fun v => setRm32 d (f v) s >>= fun u => .ok (u.advance n)) =
      .next ((s.storeWord a.toNat (f (Memory.readWord s.mem a.toNat))).advance n) := by
  rw [getRm32_in_range ha fits]
  exact finish_setRm32_in_range ha (f (Memory.readWord s.mem a.toNat)) n fits

/-- Settles O27: the rule adds the register of the reg field to the r/m operand, in each of its forms. -/
theorem addRmRegister : Obligations.AddRmRegister := fun d s =>
  ⟨rfl, fun hm => finish_updateRm32_direct hm (add32 · (getR32 d s)) 1,
    fun _ ha fits => finish_updateRm32_in_range ha (add32 · (getR32 d s)) _ fits,
    fun _ ha out => finish_getRm32_out_of_range ha out _⟩

/-- Settles O28: the rule adds the sign-extended immediate to the r/m operand, in each of its forms. -/
theorem addRmImmediate : Obligations.AddRmImmediate := fun _ imm _ =>
  ⟨rfl, fun hm => finish_updateRm32_direct hm (add32 · (sext32 imm)) 2,
    fun _ ha fits => finish_updateRm32_in_range ha (add32 · (sext32 imm)) _ fits,
    fun _ ha out => finish_getRm32_out_of_range ha out _⟩

/-- Settles O29: the rule subtracts the sign-extended immediate from the r/m operand, in each of its forms. -/
theorem subRmImmediate : Obligations.SubRmImmediate := fun _ imm _ =>
  ⟨rfl, fun hm => finish_updateRm32_direct hm (sub32 · (sext32 imm)) 2,
    fun _ ha fits => finish_updateRm32_in_range ha (sub32 · (sext32 imm)) _ fits,
    fun _ ha out => finish_getRm32_out_of_range ha out _⟩

/-- Settles O30: the rule adds 1 to the r/m operand, and each fault is the read's or the fetch's. -/
theorem incRm : Obligations.IncRm := by
  intro d s
  refine ⟨rfl, fun hm => ?_, fun a ha fits => ?_, fun a ha out => ?_, fun hm hr => ?_, fun hd hreg cut => ?_⟩
  · exact finish_updateRm32_direct hm (add32 · 1) 1
  · exact finish_updateRm32_in_range ha (add32 · 1) _ fits
  · exact finish_getRm32_out_of_range ha out _
  · exact finish_getRm32_sib hm hr _
  · exact instructionCutShortFaults s (.incRm32 d) (by simp [Instr.wf, hd, hreg]) cut

end Sys2Proof.Machine
end

section
/-! The rules of PUSH, POP and LEAVE (R140 to R144): what a push or a pop leaves, and what the rule that begins with it makes
of that. -/

namespace Sys2Proof.Machine

/-- The state a push of `v` leaves: ESP decremented, and of the word at it the bytes below the capacity stored, all four when
it fits (R50, D9). -/
def State.pushBelow (s : State) (v : Word) : State :=
  (s.setReg .esp (s.regs.esp - 4)).storeBelow (s.regs.esp - 4).toNat v

/-- A rule goes on from a push that fits (R50). -/
theorem finish_push32_in_range {s : State} (v : Word) (f : State → Except Raised State)
    (fits : (s.regs.esp - 4).toNat + 3 < s.memSize) :
    finish (push32 v s >>= f) =
      finish (f ((s.setReg .esp (s.regs.esp - 4)).storeWord (s.regs.esp - 4).toNat v)) := by
  rw [push32_in_range fits]
  rfl

/-- A rule stops at a push that does not fit (R50, D9). -/
theorem finish_push32_out_of_range {s : State} (v : Word) (f : State → Except Raised State)
    (out : s.memSize ≤ (s.regs.esp - 4).toNat + 3) :
    finish (push32 v s >>= f) = .next ((s.pushBelow v).stopOutOfRange (s.regs.esp - 4).toNat) := by
  rw [push32_out_of_range out]
  rfl

/-- A rule goes on from a pop that fits (R51). -/
theorem finish_pop32_in_range {s : State} (f : Word × State → Except Raised State)
    (fits : s.regs.esp.toNat + 3 < s.memSize) :
    finish (pop32 s >>= f) =
      finish (f (Memory.readWord s.mem s.regs.esp.toNat, s.setReg .esp (s.regs.esp + 4))) := by
  rw [pop32_in_range fits]
  rfl

/-- A rule stops at a pop that does not fit, and the pop has changed nothing (R51). -/
theorem finish_pop32_out_of_range {s : State} (f : Word × State → Except Raised State)
    (out : s.memSize ≤ s.regs.esp.toNat + 3) :
    finish (pop32 s >>= f) = .next (s.stopOutOfRange s.regs.esp.toNat) := by
  rw [pop32_out_of_range out]
  rfl

/-- Settles O31: the rule begins with a push of the register, read before ESP changes. -/
theorem pushRegister : Obligations.PushRegister := fun r s =>
  ⟨rfl, finish_push32_in_range (s.getReg r) _, finish_push32_out_of_range (s.getReg r) _⟩

/-- Settles O32: the rule begins with a push of the immediate. -/
theorem pushImmediateWord : Obligations.PushImmediateWord := fun imm _ =>
  ⟨rfl, finish_push32_in_range imm _, finish_push32_out_of_range imm _⟩

/-- Settles O33: the rule begins with a push of the zero-extended immediate. -/
theorem pushImmediateByteZeroExtends : Obligations.PushImmediateByteZeroExtends := fun imm _ =>
  ⟨rfl, finish_push32_in_range (zext32 imm) _, finish_push32_out_of_range (zext32 imm) _⟩

/-- Settles O34: the rule begins with a pop, and the register is written after ESP. -/
theorem popRegister : Obligations.PopRegister := fun _ _ =>
  ⟨rfl, finish_pop32_in_range _, finish_pop32_out_of_range _⟩

/-- Settles O35: the rule is a pop in the state whose ESP has become EBP. -/
theorem leaveRestoresTheFrame : Obligations.LeaveRestoresTheFrame := fun s =>
  ⟨rfl, finish_pop32_in_range (s := s.setReg .esp s.regs.ebp) _,
    finish_pop32_out_of_range (s := s.setReg .esp s.regs.ebp) _⟩

end Sys2Proof.Machine
end

section
/-! The frames of the instructions that push and of those that pop (R50, R51, R140 to R144, R160, R161): each ends from the
state its push, or its register writes, made. -/

namespace Sys2Proof.Machine

open Sys2Proof.Statements

/-- A push leaves the same state whether or not its store faults (R50, D9). -/
theorem push32_cases (v : Word) (s : State) :
    push32 v s = .ok (s.pushBelow v) ∨ ∃ f, push32 v s = .error ⟨f, s.pushBelow v⟩ := by
  by_cases fits : (s.regs.esp - 4).toNat + 3 < s.memSize
  · refine .inl ?_
    rw [push32_in_range fits, ← Memory.writeBelow_wordBytes s.mem v fits]
    rfl
  · exact .inr ⟨_, push32_out_of_range (Nat.le_of_not_lt fits)⟩

/-- A rule that pushes and sets pc ends from the state the push leaves (R140 to R142, R160). -/
theorem pushThen_endsFrom (v : Word) (p : State → Word) (s : State) :
    EndsFrom (· = s.pushBelow v) (finish (push32 v s >>= fun u => .ok (u.setPc (p u)))) := by
  obtain h | ⟨f, h⟩ := push32_cases v s
  · exact ⟨_, rfl, .inl ⟨_, by rw [h]; rfl⟩⟩
  · exact ⟨_, rfl, .inr ⟨f, by rw [h]; rfl⟩⟩

/-- The four instructions that push end from the state their push leaves. -/
theorem exec_endsFrom_pushBelow {i : Instr} (hi : pushes i) (s : State) :
    ∃ v, EndsFrom (· = s.pushBelow v) (exec i s) := by
  obtain ⟨r, rfl⟩ | ⟨imm, rfl⟩ | ⟨imm, rfl⟩ | ⟨rel, rfl⟩ := hi
  · exact ⟨_, pushThen_endsFrom (s.getReg r) _ s⟩
  · exact ⟨_, pushThen_endsFrom imm _ s⟩
  · exact ⟨_, pushThen_endsFrom (zext32 imm) _ s⟩
  · exact ⟨_, pushThen_endsFrom (add32 s.pc 5) _ s⟩

/-- Settles O43: the instruction ends from the decrement of ESP and the store at it. -/
theorem pushFrame : Obligations.PushFrame := by
  intro i s t hi h
  obtain ⟨v, ends⟩ := exec_endsFrom_pushBelow hi s
  obtain ⟨_, rfl, hregs, hmem, rest⟩ := ends.frame h
  simp only [State.getReg_eq, hregs, hmem]
  exact ⟨fun _ hr => RegFile.get_set_other s.regs _ hr, rest,
    fun _ outside => Memory.read_writeBelow_other s.memSize s.mem _ (wordBytes v) outside⟩

/-- `u` is `s` after writes of registers of the list `changed`. -/
def RegsWritten (changed : List Reg) (s u : State) : Prop :=
  ∃ file : RegFile, u = { s with regs := file } ∧ ∀ r, r ∉ changed → file.get r = s.regs.get r

theorem RegsWritten.refl (changed : List Reg) (s : State) : RegsWritten changed s s :=
  ⟨s.regs, rfl, fun _ _ => rfl⟩

theorem RegsWritten.setReg {changed : List Reg} {s u : State} (h : RegsWritten changed s u) {r : Reg}
    (hr : r ∈ changed) (v : Word) : RegsWritten changed s (u.setReg r v) := by
  obtain ⟨file, rfl, kept⟩ := h
  refine ⟨file.set r v, rfl, fun q hq => ?_⟩
  have other : q ≠ r := fun same => hq (same ▸ hr)
  rw [RegFile.get_set_other file v other, kept q hq]

/-- A rule that begins with a pop ends from the state it popped in, or as it ends from the state after the pop (R51, R189). -/
theorem pop32_endsFrom {P : State → Prop} {s : State} (f : Word × State → Except Raised State) (stopped : P s)
    (popped : ∀ v, EndsFrom P (finish (f (v, s.setReg .esp (s.regs.esp + 4))))) :
    EndsFrom P (finish (pop32 s >>= f)) := by
  by_cases fits : s.regs.esp.toNat + 3 < s.memSize
  · rw [finish_pop32_in_range f fits]
    exact popped _
  · exact ⟨s, stopped, .inr ⟨_, finish_pop32_out_of_range f (Nat.le_of_not_lt fits)⟩⟩

/-- The three instructions that pop write ESP and the popped register alone. -/
theorem exec_endsFrom_regsWritten {i : Instr} {changed : List Reg} (hi : popChanges i = some changed) (s : State) :
    EndsFrom (RegsWritten changed s) (exec i s) := by
  cases i <;> cases hi
  case popR32 r =>
    have start := RegsWritten.refl [.esp, r] s
    exact pop32_endsFrom _ start fun v =>
      ⟨_, (start.setReg (by simp) _).setReg (r := r) (by simp) v, .inl ⟨_, rfl⟩⟩
  case leave =>
    have start := (RegsWritten.refl [.esp, .ebp] s).setReg (r := .esp) (by simp) (s.getReg .ebp)
    exact pop32_endsFrom _ start fun v =>
      ⟨_, (start.setReg (by simp) _).setReg (r := .ebp) (by simp) v, .inl ⟨_, rfl⟩⟩
  case ret =>
    have start := RegsWritten.refl [.esp] s
    exact pop32_endsFrom _ start fun _ => ⟨_, start.setReg (by simp) _, .inl ⟨_, rfl⟩⟩

/-- Settles O44: the instruction ends from writes of the registers it may change. -/
theorem popFrame : Obligations.PopFrame := by
  intro i changed s t hi h
  obtain ⟨u, written, hregs, hmem, rest⟩ := (exec_endsFrom_regsWritten hi s).frame h
  simp only [State.getReg_eq, hregs, hmem]
  obtain ⟨file, rfl, kept⟩ := written
  exact ⟨kept, rest, fun _ => rfl⟩

end Sys2Proof.Machine
end

section
/-! The rules of CALL, RET and JMP (R160 to R163), a transfer to the sentinel 0 (R182), and the frame of the jumps. -/

namespace Sys2Proof.Machine

/-- Settles O36: the rule begins with a push of the return address. -/
theorem callPushesTheReturnAddress : Obligations.CallPushesTheReturnAddress := fun _ s =>
  ⟨rfl, finish_push32_in_range (s.pc + 5) _, finish_push32_out_of_range (s.pc + 5) _⟩

/-- A step whose instruction sends a running machine to the sentinel 0 halts it there (R182). -/
theorem step_halts_of_exec {s u : State} {i : Instr} {p : Word} (hi : i.wf = true) (holds : s.Holds i)
    (run : exec i s = .next (u.setPc p)) (running : u.status = .running) (sentinel : p = 0) :
    step s = .next { u with pc := 0, status := .halted } := by
  subst sentinel
  rw [step_of_holds hi holds, run]
  exact congrArg Host.Outcome.next (if_pos ⟨running, rfl⟩)

/-- RET with a word at ESP takes it off the stack and goes there (R161). -/
theorem exec_ret_in_range {s : State} (fits : s.regs.esp.toNat + 3 < s.memSize) :
    exec .ret s =
      .next ((s.setReg .esp (s.regs.esp + 4)).setPc (Memory.readWord s.mem s.regs.esp.toNat)) :=
  finish_pop32_in_range _ fits

/-- Settles O37: the rule begins with a pop, and a popped 0 is the sentinel. -/
theorem retPopsThePc : Obligations.RetPopsThePc := fun _ =>
  ⟨rfl, exec_ret_in_range, finish_pop32_out_of_range _,
    fun holds fits zero => step_halts_of_exec rfl holds (exec_ret_in_range fits) holds.running zero⟩

/-- Settles O40: CALL leaves the return address in the word RET pops, and RET adds back the 4 that CALL took from ESP. -/
theorem retReturnsAfterTheCall : Obligations.RetReturnsAfterTheCall := by
  intro rel s hm fits
  obtain ⟨-, call, -⟩ := callPushesTheReturnAddress rel s
  refine ⟨_, _, call fits, rfl, exec_ret_in_range fits, ?_, ?_⟩
  · exact Memory.readWord_writeWord hm (s.regs.esp - 4).toNat (s.pc + 5)
  · show s.regs.set .esp (s.regs.esp - 4 + 4) = s.regs
    rw [BitVec.sub_add_cancel]
    rfl

/-- Settles O38: the rule is one write of pc; the cut-short offset is a case of the fetch. -/
theorem shortJump : Obligations.ShortJump := fun _ s =>
  ⟨rfl, rfl, instructionCutShortFaults s _ rfl⟩

/-- Settles O39: the rule is one write of pc; the offset back to 0 makes that write the sentinel. -/
theorem nearJump : Obligations.NearJump := by
  intro rel s
  refine ⟨rfl, rfl, instructionCutShortFaults s _ rfl, fun holds back => ?_⟩
  have target : s.pc + 5 + rel = 0 := by
    rw [back, BitVec.add_comm _ (0 - _), BitVec.sub_add_cancel]
  exact step_halts_of_exec rfl holds rfl holds.running target

/-- The two jumps write nothing but pc, so they end from the state they began in (R162, R163). -/
theorem exec_endsFrom_self {i : Instr} (hi : (∃ rel, i = .jmpRel8 rel) ∨ ∃ rel, i = .jmpRel32 rel) (s : State) :
    EndsFrom (· = s) (exec i s) := by
  obtain ⟨rel, rfl⟩ | ⟨rel, rfl⟩ := hi
  · exact ⟨s, rfl, .inl ⟨_, rfl⟩⟩
  · exact ⟨s, rfl, .inl ⟨_, rfl⟩⟩

/-- Settles O45: the jump ends from the state it began in. -/
theorem jumpFrame : Obligations.JumpFrame := by
  intro i s t hi h
  obtain ⟨_, rfl, hregs, hmem, rest⟩ := (exec_endsFrom_self hi s).frame h
  exact ⟨fun r => congrArg (RegFile.get · r) hregs, rest, fun a => congrArg (Memory.read · a) hmem⟩

end Sys2Proof.Machine
end

section
/-! The ends of a step: the faults of fetch and dispatch (R183, R187), the sentinel (R182), the final states (R184), and the
jumps that never come to one (R203). -/

namespace Sys2Proof.Machine

/-- A state that a step answers itself is the end of every run from it. -/
theorem run_of_step_self {s : State} (h : step s = .next s) (k : Nat) : Sys2Proof.core.run k s = .next s := by
  induction k with
  | zero => rfl
  | succ k ih =>
    simp only [Host.Core.run, show Sys2Proof.core.step s = .next s from h]
    exact ih

/-- Settles O46: a step in a final state answers the state, so every run does. -/
theorem finalStatesNeverChange : Obligations.FinalStatesNeverChange := fun _ final =>
  ⟨step_of_final final, run_of_step_self (step_of_final final)⟩

/-- Settles O14: the step's end of the instruction is Check-Terminal, outcome by outcome. -/
theorem stepRunsTheDecodedInstruction : Obligations.StepRunsTheDecodedInstruction := by
  intro s i hi holds
  rw [step_of_holds hi holds]
  cases exec i s <;> rfl

/-- Settles O15: the window is empty, and the byte that decoding lacks is the one at pc. -/
theorem stepAtOrAboveCapacityFaults : Obligations.StepAtOrAboveCapacityFaults := by
  intro s running above
  have window := fetchWindow_above above
  have missing : decode (fetchWindow s) = .error .missing := window ▸ rfl
  rw [step_of_decode_error running missing, fetchFault, window]
  rfl

/-- Settles O17: the decoder rejects the opcode whatever follows it. -/
theorem absentOpcodeStopsWithStateUnchanged : Obligations.AbsentOpcodeStopsWithStateUnchanged := by
  intro s running below absent
  obtain ⟨rest, window⟩ := fetchWindow_prefix (s := s) (bytes := [Memory.read s.mem s.pc.toNat])
    (by simp [maxLength]) below fun k hk => by
      obtain rfl : k = 0 := by simpa using hk
      rfl
  have rejected : decode (fetchWindow s) = .error (.opcode (Memory.read s.mem s.pc.toNat)) := by
    simp [window, decode, (dispatch_eq_none_iff _).2 absent]
  exact step_of_decode_error running rejected

@[simp] theorem checkTerminal_pc (s : State) : (checkTerminal s).pc = s.pc := by
  rcases checkTerminal_eq s with h | ⟨-, -, h⟩ <;> rw [h]

/-- An instruction that completes does so in the status it began in. -/
theorem State.Completes.status {s t : State} (h : s.Completes t) : t.status = s.status := by
  obtain ⟨u, p, wrote, rfl⟩ := h
  exact wrote.status

/-- Settles O50: Check-Terminal decides between Halted and Running by pc alone, and a fault is neither. -/
theorem haltsExactlyAtTheSentinel : Obligations.HaltsExactlyAtTheSentinel := by
  intro s t running h
  cases stepEffect_of_step h with
  | final final => exact absurd running final
  | @completed u _ done =>
    rw [checkTerminal_running (done.status.trans running), checkTerminal_pc]
    by_cases zero : u.pc = 0
    · rw [if_pos zero]
      exact ⟨⟨fun _ => ⟨zero, fun _ => nofun⟩, fun _ => rfl⟩, nofun⟩
    · rw [if_neg zero]
      exact ⟨⟨nofun, fun halts => absurd halts.1 zero⟩, fun _ => zero⟩
  | faulted => simp

/-- Away from the sentinel, an instruction that leaves the machine as it is makes a step that does (R180, R182). -/
theorem step_of_exec_self {s : State} {i : Instr} (hi : i.wf = true) (holds : s.Holds i) (run : exec i s = .next s)
    (nonzero : s.pc ≠ 0) : step s = .next s := by
  rw [step_of_holds hi holds, run]
  exact congrArg Host.Outcome.next (if_neg fun halts => nonzero halts.2)

/-- An offset that undoes the length of its jump leads back (R162, R163). -/
theorem setPc_back (s : State) {n rel : Word} (h : n + rel = 0) : s.setPc (s.pc + n + rel) = s := by
  rw [add_assoc, h, add_zero]
  rfl

/-- Settles O56: each jump answers the state it began in. -/
theorem jumpToSelfNeverEnds : Obligations.JumpToSelfNeverEnds := by
  rintro s (holds | holds) nonzero k
  · have back : exec (.jmpRel8 0xFE) s = .next s := congrArg Host.Outcome.next (setPc_back s (by decide))
    exact run_of_step_self (step_of_exec_self rfl holds back nonzero) k
  · have back : exec (.jmpRel32 0xFFFFFFFB) s = .next s := congrArg Host.Outcome.next (setPc_back s (by decide))
    exact run_of_step_self (step_of_exec_self rfl holds back nonzero) k

end Sys2Proof.Machine
end

section
/-! What a fault of an instruction leaves behind (R187 to R189, D9): every end an instruction can have, with the state of each. -/

namespace Sys2Proof.Machine

open Sys2Proof.Statements

/-- The two instructions that store to their r/m operand without reading it (R101, R102). -/
def storesUnread (i : Instr) : Prop := (∃ d imm, i = .movRm32Imm32 d imm) ∨ ∃ d, i = .movRm32R32 d

/-- How the instruction `i` can end in `s`: it completes, or it stops with nothing changed, or the capacity stops it after
part of its effects (R187 to R189, D9): a push, a store to an operand it has not read, or the first half of LEAVE. -/
inductive Ends (i : Instr) (s : State) : Host.Outcome State Fault Refusal → Prop
  | completed {t : State} (status : t.status = s.status) : Ends i s (.next t)
  | unchanged (f : Fault) (esp : faultedEsp i s = s.regs.esp) : Ends i s (.next (takeFault f s))
  | pushed (hi : pushes i) (v : Word) (a : Nat) : Ends i s (.next ((s.pushBelow v).stopOutOfRange a))
  | stored (hi : storesUnread i) (v : Word) (a : Nat) : Ends i s (.next ((s.storeBelow a v).stopOutOfRange a))
  | halfLeft (hi : i = .leave) (a : Nat) : Ends i s (.next ((s.setReg .esp s.regs.ebp).stopOutOfRange a))

theorem faultedEsp_of_pushes {i : Instr} (hi : pushes i) (s : State) : faultedEsp i s = s.regs.esp - 4 := by
  obtain ⟨r, rfl⟩ | ⟨imm, rfl⟩ | ⟨imm, rfl⟩ | ⟨rel, rfl⟩ := hi <;> rfl

theorem faultedEsp_of_storesUnread {i : Instr} (hi : storesUnread i) (s : State) : faultedEsp i s = s.regs.esp := by
  obtain ⟨d, imm, rfl⟩ | ⟨d, rfl⟩ := hi <;> rfl

section
variable {i : Instr} {s : State}

/-- An r/m operand that could be read can be written, which leaves the status alone (R75, R76). -/
theorem setRm32_of_getRm32 {d : Descriptor} {v : Word} (h : getRm32 d s = .ok v) (w : Word) :
    ∃ u, setRm32 d w s = .ok u ∧ u.status = s.status := by
  by_cases hm : d.mode = .m11
  · exact ⟨_, setRm32_direct hm, rfl⟩
  by_cases hr : d.rm = 4
  · rw [getRm32_memory hm, effectiveAddress_sib hm hr] at h
    cases h
  obtain ⟨a, ha⟩ := effectiveAddress_memory (s := s) hm hr
  by_cases fits : a.toNat + 3 < s.memSize
  · exact ⟨_, setRm32_in_range ha w fits, rfl⟩
  · rw [getRm32_out_of_range ha (Nat.le_of_not_lt fits)] at h
    cases h

/-- ADD, SUB and INC stop only at their read (R120 to R123). -/
theorem ends_updateRm32 (esp : faultedEsp i s = s.regs.esp) (d : Descriptor) (f : Word → Word) (n : Nat) :
    Ends i s (finish (getRm32 d s >>= fun a => setRm32 d (f a) s >>= fun u => .ok (u.advance n))) := by
  obtain ⟨a, read⟩ | ⟨fault, read⟩ := getRm32_cases d s
  · obtain ⟨u, write, kept⟩ := setRm32_of_getRm32 read (f a)
    simp only [read, write, bind, Except.bind]
    exact .completed kept
  · rw [read]
    exact .unchanged fault esp

/-- A store to an operand not read before stops at the SIB escape, or at the capacity (R72, R101, R102). -/
theorem ends_setRm32 (hi : storesUnread i) (d : Descriptor) (v : Word) (n : Nat) :
    Ends i s (finish (setRm32 d v s >>= fun u => .ok (u.advance n))) := by
  by_cases hm : d.mode = .m11
  · rw [setRm32_direct hm]
    exact .completed rfl
  by_cases hr : d.rm = 4
  · rw [finish_setRm32_sib hm hr]
    exact .unchanged _ (faultedEsp_of_storesUnread hi s)
  obtain ⟨a, ha⟩ := effectiveAddress_memory (s := s) hm hr
  by_cases fits : a.toNat + 3 < s.memSize
  · rw [finish_setRm32_in_range ha v n fits]
    exact .completed rfl
  · rw [finish_setRm32_out_of_range ha v n (Nat.le_of_not_lt fits)]
    exact .stored hi v a.toNat

/-- A rule that pushes and sets pc stops only at the push (R140 to R142, R160). -/
theorem ends_push32 (hi : pushes i) (v : Word) (p : State → Word) :
    Ends i s (finish (push32 v s >>= fun u => .ok (u.setPc (p u)))) := by
  by_cases fits : (s.regs.esp - 4).toNat + 3 < s.memSize
  · rw [finish_push32_in_range v _ fits]
    exact .completed rfl
  · rw [finish_push32_out_of_range v _ (Nat.le_of_not_lt fits)]
    exact .pushed hi v _

/-- A rule that pops in the state `u` and keeps the status stops only at the pop (R143, R144, R161). -/
theorem ends_pop32 {u : State} (hu : u.status = s.status) (f : Word × State → State)
    (kept : ∀ p, (f p).status = p.2.status) (stopped : ∀ a, Ends i s (.next (u.stopOutOfRange a))) :
    Ends i s (finish (pop32 u >>= fun p => .ok (f p))) := by
  by_cases fits : u.regs.esp.toNat + 3 < u.memSize
  · rw [finish_pop32_in_range _ fits]
    exact .completed ((kept _).trans hu)
  · rw [finish_pop32_out_of_range _ (Nat.le_of_not_lt fits)]
    exact stopped _

end

/-- The ends of every instruction. -/
theorem exec_ends (i : Instr) (s : State) : Ends i s (exec i s) := by
  cases i with
  | movR32Imm32 r imm => exact .completed rfl
  | movRm32Imm32 d imm => exact ends_setRm32 (.inl ⟨d, imm, rfl⟩) d imm _
  | movRm32R32 d => exact ends_setRm32 (.inr ⟨d, rfl⟩) d (getR32 d s) _
  | movR32Rm32 d =>
    obtain ⟨v, read⟩ | ⟨fault, read⟩ := getRm32_cases d s
    · rw [exec_movR32Rm32_of_getRm32 read]
      exact .completed rfl
    · rw [exec, execMovR32Rm32, read]
      exact .unchanged fault rfl
  | addRm32R32 d => exact ends_updateRm32 rfl d (add32 · (getR32 d s)) _
  | addRm32Imm8 d imm => exact ends_updateRm32 rfl d (add32 · (sext32 imm)) _
  | subRm32Imm8 d imm => exact ends_updateRm32 rfl d (sub32 · (sext32 imm)) _
  | incRm32 d => exact ends_updateRm32 rfl d (add32 · 1) _
  | pushR32 r => exact ends_push32 (.inl ⟨r, rfl⟩) (s.getReg r) _
  | pushImm32 imm => exact ends_push32 (.inr (.inl ⟨imm, rfl⟩)) imm _
  | pushImm8 imm => exact ends_push32 (.inr (.inr (.inl ⟨imm, rfl⟩))) (zext32 imm) _
  | callRel32 rel => exact ends_push32 (.inr (.inr (.inr ⟨rel, rfl⟩))) (add32 s.pc 5) _
  | popR32 r => exact ends_pop32 rfl (fun p => (p.2.setReg r p.1).advance 1) (fun _ => rfl) fun _ => .unchanged _ rfl
  | leave =>
    exact ends_pop32 (s := s) (u := s.setReg .esp s.regs.ebp) rfl (fun p => (p.2.setReg .ebp p.1).advance 1)
      (fun _ => rfl) fun a => .halfLeft rfl a
  | ret => exact ends_pop32 rfl (fun p => p.2.setPc p.1) (fun _ => rfl) fun _ => .unchanged _ rfl
  | jmpRel8 rel => exact .completed rfl
  | jmpRel32 rel => exact .completed rfl

/-- A step that faults took the fault of fetch or dispatch with nothing changed, or ran an instruction that faulted (R180,
R183). -/
theorem step_faulted {s t : State} {f : Fault} (running : s.status = .running) (h : step s = .next t)
    (faulted : t.status = .faulted f) : t = takeFault f s ∨ ∃ i, exec i s = .next t := by
  rcases step_cases s with ⟨final, -⟩ | ⟨-, e, -, hstep⟩ | ⟨-, i, -, -, hstep⟩
  · exact absurd running final
  · obtain rfl : takeFault (fetchFault s e) s = t := by simpa [hstep] using h
    obtain rfl : fetchFault s e = f := by simpa using faulted
    exact .inl rfl
  · rcases exec_cases i s with ⟨u, hexec, done⟩ | ⟨g, u, hexec, -⟩
    · obtain rfl : checkTerminal u = t := by simpa [hstep, hexec, afterExecute] using h
      rw [checkTerminal_running (done.status.trans running)] at faulted
      split at faulted <;> cases faulted
    · have final : checkTerminal (takeFault g u) = takeFault g u := checkTerminal_final (by simp)
      obtain rfl : takeFault g u = t := by simpa [hstep, hexec, afterExecute, final] using h
      exact .inr ⟨i, hexec⟩

/-- Settles O51: an instruction that does not leave the state unchanged was stopped by the capacity. -/
theorem otherFaultsLeaveTheStateUnchanged : Obligations.OtherFaultsLeaveTheStateUnchanged := by
  intro s t f running h faulted other
  obtain same | ⟨i, hexec⟩ := step_faulted running h faulted
  · exact same
  have ends := exec_ends i s
  rw [hexec] at ends
  cases ends with
  | completed kept => simp [kept, running] at faulted
  | unchanged g =>
    obtain rfl : g = f := by simpa using faulted
    rfl
  | pushed | stored | halfLeft => exact absurd (Status.faulted.inj faulted).symm (other _ _)

/-- An instruction that faults has not moved pc or written the flags word, and its fault fits the state (R186 to R189). -/
theorem exec_faulted {i : Instr} {s t : State} {f : Fault} (running : s.status = .running) (h : exec i s = .next t)
    (faulted : t.status = .faulted f) : f.Fits s ∧ t.pc = s.pc ∧ t.flags = s.flags := by
  rcases exec_cases i s with ⟨u, hu, done⟩ | ⟨g, u, hu, fits, wrote⟩
  · obtain rfl : u = t := by simpa [hu] using h
    simp [done.status, running] at faulted
  · obtain rfl : takeFault g u = t := by simpa [hu] using h
    obtain rfl : g = f := by simpa using faulted
    exact ⟨fits, wrote.pc, wrote.flags⟩

/-- Settles O52: the fault fits the state, and each end of the instruction names what it leaves. -/
theorem outOfRangeLeavesOnlyTheNamedEffects : Obligations.OutOfRangeLeavesOnlyTheNamedEffects := by
  intro i s t address p running h faulted
  obtain ⟨⟨atPc, above⟩, pc, flags⟩ := exec_faulted running h faulted
  refine ⟨pc, atPc, above, flags, ?_⟩
  have ends := exec_ends i s
  rw [h] at ends
  cases ends with
  | completed kept => simp [kept, running] at faulted
  | unchanged f esp => exact ⟨fun _ _ => rfl, esp.symm, fun _ _ => rfl, fun _ _ _ => rfl⟩
  | pushed hi v a =>
    exact ⟨fun _ other => RegFile.get_set_other s.regs _ other, (faultedEsp_of_pushes hi s).symm,
      fun _ out => Memory.read_writeBelow_above s.mem _ (wordBytes v) out, fun _ _ pushless => absurd hi pushless⟩
  | stored hi v a =>
    refine ⟨fun _ _ => rfl, (faultedEsp_of_storesUnread hi s).symm,
      fun _ out => Memory.read_writeBelow_above s.mem a (wordBytes v) out, fun noImm noReg _ => ?_⟩
    obtain ⟨d, imm, same⟩ | ⟨d, same⟩ := hi
    · exact absurd same (noImm d imm)
    · exact absurd same (noReg d)
  | halfLeft hi a =>
    subst hi
    exact ⟨fun _ other => RegFile.get_set_other s.regs _ other, rfl, fun _ _ => rfl, fun _ _ _ => rfl⟩

end Sys2Proof.Machine
end

section
/-! The host's operations: `load` and `dump` (R198 to R200). -/

namespace Sys2Proof.Machine

/-- Settles O58: a load that fits is the bounded write of its bytes; the refusals are the tests of `load` and `serve`. -/
theorem loadIsWholeOrRefused : Obligations.LoadIsWholeOrRefused := by
  refine ⟨fun offset bytes s hm fits => ?_, fun offset bytes s out => if_neg (Nat.not_le_of_lt out),
    fun h offset bytes begun => if_pos begun, fun _ => rfl⟩
  refine ⟨_, if_pos fits, rfl, fun k hk => ?_, fun b outside => ?_⟩
  · exact Memory.read_writeBelow s.memSize hm offset bytes k hk (by omega)
  · exact Memory.read_writeBelow_other s.memSize s.mem offset bytes outside

/-- Eight hexadecimal digits are the word (R199). -/
theorem foldl_hexDigits (v : Word) : (hexDigits v).foldl (fun n d => 16 * n + d.toNat) 0 = v.toNat := by
  simp only [hexDigits, List.foldl, BitVec.extractLsb'_toNat, Nat.shiftRight_eq_div_pow]
  omega

/-- Settles O59: the dump by its definition, the digits by their place values. -/
theorem dumpListsRegistersThenPc : Obligations.DumpListsRegistersThenPc :=
  ⟨fun _ => rfl, fun v => ⟨rfl, foldl_hexDigits v⟩, fun _ => rfl⟩

end Sys2Proof.Machine
end

section
/-! The constructor (R220): its memory is its background cut off at the capacity, and its registers are zero but for ESP. -/

namespace Sys2Proof.Machine

/-- One step of `Memory.ofCells`: a background cell counts only below the capacity. -/
def Memory.putCell (limit : Nat) (m : Memory) (c : Host.Cell) : Memory :=
  if c.1 < limit then Memory.write m c.1 c.2 else m

theorem Memory.ofCells_eq_foldl (limit : Nat) (cells : List Host.Cell) :
    Memory.ofCells limit cells = cells.foldl (Memory.putCell limit) [] := rfl

theorem Memory.wf_putCell (limit : Nat) {m : Memory} (hm : Memory.wf m) (c : Host.Cell) :
    Memory.wf (Memory.putCell limit m c) := by
  unfold Memory.putCell
  split
  · exact Memory.wf_write hm c.1 c.2
  · exact hm

theorem Memory.mem_putCell {limit : Nat} {m : Memory} {c d : Host.Cell} (h : d ∈ Memory.putCell limit m c) :
    d ∈ m ∨ d.1 < limit := by
  unfold Memory.putCell at h
  split at h
  case isTrue below =>
    obtain rfl | listed := Memory.mem_write h
    · exact .inr below
    · exact .inl listed
  case isFalse => exact .inl h

theorem Memory.read_putCell_same {limit : Nat} {m : Memory} (hm : Memory.wf m) {c : Host.Cell} (below : c.1 < limit) :
    Memory.read (Memory.putCell limit m c) c.1 = c.2 := by
  rw [Memory.putCell, if_pos below, Memory.read_write_same hm]

theorem Memory.read_putCell_other (limit : Nat) (m : Memory) {c : Host.Cell} {a : Nat} (other : a ≠ c.1) :
    Memory.read (Memory.putCell limit m c) a = Memory.read m a := by
  unfold Memory.putCell
  split
  · exact Memory.read_write_other m c.2 other
  · rfl

/-- Launch memory is in canonical form, whatever cells the background lists. -/
theorem Memory.wf_ofCells (limit : Nat) (cells : List Host.Cell) : Memory.wf (Memory.ofCells limit cells) := by
  rw [Memory.ofCells_eq_foldl]
  exact List.foldlRecOn (motive := Memory.wf) cells (Memory.putCell limit) ⟨.nil, nofun⟩
    fun _ hm c _ => Memory.wf_putCell limit hm c

/-- Launch memory lists no address at or above the capacity. -/
theorem Memory.lt_of_mem_ofCells {limit : Nat} {cells : List Host.Cell} :
    ∀ c ∈ Memory.ofCells limit cells, c.1 < limit := by
  rw [Memory.ofCells_eq_foldl]
  exact List.foldlRecOn (motive := fun m : Memory => ∀ c ∈ m, c.1 < limit) cells (Memory.putCell limit) nofun
    fun _ hm _ _ d hd => (Memory.mem_putCell hd).elim (hm d) id

/-- Cells at other addresses leave an address alone. -/
theorem Memory.read_foldl_putCell_other (limit : Nat) (m : Memory) {cells : List Host.Cell} {a : Nat}
    (other : ∀ c ∈ cells, a ≠ c.1) : Memory.read (cells.foldl (Memory.putCell limit) m) a = Memory.read m a :=
  List.foldlRecOn (motive := fun n => Memory.read n a = Memory.read m a) cells (Memory.putCell limit) rfl
    fun n hn c hc => (Memory.read_putCell_other limit n (other c hc)).trans hn

/-- Cells with rising addresses, put into a memory that does not list `a`, make `a` read as in the cells. -/
theorem Memory.read_foldl_putCell {limit : Nat} {m : Memory} {cells : List Host.Cell} {a : Nat} (hm : Memory.wf m)
    (rising : cells.Pairwise fun c d => c.1 < d.1) (below : a < limit) (unlisted : Memory.read m a = Config.unlistedByte) :
    Memory.read (cells.foldl (Memory.putCell limit) m) a = Memory.read cells a := by
  induction cells generalizing m with
  | nil => exact unlisted
  | cons c rest ih =>
    obtain ⟨above, rising⟩ := List.pairwise_cons.mp rising
    rw [List.foldl_cons, Memory.read]
    split
    case isTrue here =>
      subst here
      rw [Memory.read_foldl_putCell_other limit _ fun d hd => (above d hd).ne, Memory.read_putCell_same hm below]
    case isFalse elsewhere =>
      have still := Memory.read_putCell_other limit m (Ne.symm elsewhere)
      exact ih (Memory.wf_putCell limit hm c) rising (still.trans unlisted)

/-- Below the capacity, launch memory reads as a canonical background. -/
theorem Memory.read_ofCells {limit : Nat} {background : Memory} (hb : Memory.wf background) {a : Nat} (below : a < limit) :
    Memory.read (Memory.ofCells limit background) a = Memory.read background a := by
  rw [Memory.ofCells_eq_foldl]
  exact Memory.read_foldl_putCell ⟨.nil, nofun⟩ hb.1 below rfl

/-- The constructor zeroes every register but the stack pointer. -/
theorem getReg_construct_of_ne_esp (memSize : Nat) (eip0 esp0 : Word) (background : List Host.Cell) {r : Reg}
    (other : r ≠ .esp) : (State.construct memSize eip0 esp0 background).getReg r = 0 := by
  cases r with
  | esp => exact absurd rfl other
  | eax | ecx | edx | ebx | ebp | esi | edi => rfl

/-- With a capacity R7 allows the constructor gives a state that meets the invariant, whatever cells the background lists. -/
theorem inv_construct {memSize : Nat} (eip0 esp0 : Word) (background : List Host.Cell) (pos : 1 ≤ memSize)
    (le : memSize ≤ 2 ^ 32) : (State.construct memSize eip0 esp0 background).Inv where
  capacity_pos := pos
  capacity_le := le
  mem_wf := Memory.wf_ofCells memSize background
  mem_below := Memory.lt_of_mem_ofCells
  status_fits := trivial

/-- Settles O57: the fields are the constructor's arguments and constants, and the memory reads as the background below the
capacity. -/
theorem constructorBuildsTheResetState : Obligations.ConstructorBuildsTheResetState := by
  refine ⟨fun memSize eip0 esp0 background hb => ⟨?_, rfl, rfl, rfl, rfl, rfl, ?_, ?_⟩, rfl⟩
  · exact fun _ other => getReg_construct_of_ne_esp memSize eip0 esp0 background other
  · exact fun _ below => Memory.read_ofCells hb below
  · exact inv_construct eip0 esp0 background

end Sys2Proof.Machine
end
